-- ==== Sys2Proof/Word.lean ====
section
/-! DEFINITION. The word types of the block: byte, nibble, the window width W and the lane vectors (00_scope R6, R7, R9, R10). -/

namespace Sys2Proof

/-- A byte, unsigned value 0..255 (R9). -/
abbrev Byte := BitVec 8

/-- A high nibble, 4 bits (R7). -/
abbrev Nibble := BitVec 4

/-- The window width parameter: exactly W ∈ {16, 32, 64} (R6). -/
inductive Width where
  | w16
  | w32
  | w64
  deriving DecidableEq, Repr

/-- W, the number of bytes of a window (R6). -/
def Width.bytes : Width → Nat
  | .w16 => 16
  | .w32 => 32
  | .w64 => 64

theorem Width.sixteen_le_bytes (w : Width) : 16 ≤ w.bytes := by cases w <;> decide

/-- A vector of W bytes; lane 0 holds the byte that comes first in the stream (R10). -/
abbrev Lanes (w : Width) := Vector Byte w.bytes

/-- A vector of W high nibbles (R7, R20). -/
abbrev Nibbles (w : Width) := Vector Nibble w.bytes

end Sys2Proof
end

