-- ==== Sys2Proof/Config.lean ====
section
/-! DEFINITION. What is fixed for one machine and what the spec leaves free: the width at reset, the example pad byte, the one free value. -/

namespace Sys2Proof

/-- The width of `State.reset`. R6 leaves W open; the spec's vectors use 16.
DESIGN CHOICE (log entry 1), unsafe only for a claim about `State.reset` read as one about every W: every other
claim is about all states, so about all three widths. -/
def Config.resetWidth : Width := .w16

/-- The pad byte of the spec's vectors (R8; log entry 17). The host functions take PAD as an argument; only tests use this one. -/
def Config.examplePad : Byte := 0x20#8

/-- The draw that `trailing_zero_count 0` answers (48_companion_bitops R181, 93 U1), one for each draw number: a free
value, nothing constrains it (log entry 10). Safe. -/
opaque Config.freeTrailingZeroCount : Nat → BitVec 64

end Sys2Proof
end

