-- ==== Sys2Proof/Syntax.lean ====
section
/-! DEFINITION. The command set: one constructor per row of spec/opcode_table.json (30_encoding R62), and the command word (R60, R61). -/

namespace Sys2Proof

/-- The commands of the block (30_encoding R62, R64). `feed` carries its window, lane 0 first, as the assembler writes it
(R66); that it has exactly W bytes is `Instr.WellFormed`. -/
inductive Instr where
  /-- 0x0, an idle step (R150). -/
  | nop
  /-- 0x1, "create a validator" (R151). -/
  | init
  /-- 0x2, "feed the next window" (R153 to R157). -/
  | feed (cur : List Byte)
  /-- 0x3, "run the end-of-buffer tail check" (R159, R160). -/
  | finish
  /-- 0x4, "query current error state" (R162). -/
  | query
  /-- Reserved opcodes 0x5 to 0xF (R165; log entry 18). -/
  | op5
  | op6
  | op7
  | op8
  | op9
  | opA
  | opB
  | opC
  | opD
  | opE
  | opF
  deriving DecidableEq, Repr

/-- The command word: the pair `(cmd_op, cmd_data)`, 4 and 8·W bits (R60, R61). -/
structure Command (w : Width) where
  op : BitVec 4
  data : BitVec (8 * w.bytes)
  deriving DecidableEq, Repr

end Sys2Proof
end

