-- ==== Sys2Proof/Machine/Operands.lean ====
section
/-! DEFINITION. Operand assembly: the bus `cmd_data` and the window it carries (20_memory R43, 30_encoding R63). The only operand form of the block. -/

namespace Sys2Proof.Machine

/-- `cur[i] = cmd_data[8i+7 : 8i]`, lane 0 in the least significant byte (R43, R63). -/
def lanes (w : Width) (data : BitVec (8 * w.bytes)) : Lanes w :=
  ⟨((List.range w.bytes).map fun i => data.extractLsb' (8 * i) 8).toArray, by simp⟩

/-- A list of bytes read as one integer, the first byte least significant: little-endian in byte lanes (R43). -/
def busNat (bytes : List Byte) : Nat :=
  bytes.foldr (fun b acc => b.toNat + 256 * acc) 0

/-- The bus value that carries the given bytes, lane i in bits 8i+7..8i (R43). Of a list without exactly W bytes, which is no
window (R45), lanes past its end are 0x00 and bytes past lane W−1 are dropped: DESIGN CHOICE (log entry 19). -/
def bus (w : Width) (bytes : List Byte) : BitVec (8 * w.bytes) :=
  BitVec.ofNat (8 * w.bytes) (busNat bytes)

end Sys2Proof.Machine
end

