-- ==== Sys2Proof/WellFormed.lean ====
section
/-! DEFINITION. The check on a command term: a FEED has exactly W bytes (30_encoding R66). No other command has an operand (R61, R63). -/

namespace Sys2Proof

/-- "A FEED with fewer or more than W bytes is not a command" (R66). Every other term is a command at every W. -/
def Instr.wellFormed (w : Width) : Instr → Bool
  | .feed cur => cur.length == w.bytes
  | .nop | .init | .finish | .query => true
  | .op5 | .op6 | .op7 | .op8 | .op9 | .opA | .opB | .opC | .opD | .opE | .opF => true

/-- `Instr.wellFormed`, as a proposition. -/
abbrev Instr.WellFormed (w : Width) (i : Instr) : Prop := i.wellFormed w = true

end Sys2Proof
end

