-- ==== Sys2Proof/Decode.lean ====
section
/-! DEFINITION. The decoder, total on every command word (30_encoding R62, R64, R65), the encoder, and the numbering of a command's bits as one number. -/

namespace Sys2Proof

/-- The decoder: all 4 bits of `cmd_op` compared (R62). Every value of `cmd_op` has a defined effect, so nothing is
rejected (R64); format C ignores `cmd_data` (R61). -/
def decode {w : Width} (c : Command w) : Instr :=
  match c.op.toNat with
  | 0x0 => .nop
  | 0x1 => .init
  | 0x2 => .feed (Machine.lanes w c.data).toList
  | 0x3 => .finish
  | 0x4 => .query
  | 0x5 => .op5
  | 0x6 => .op6
  | 0x7 => .op7
  | 0x8 => .op8
  | 0x9 => .op9
  | 0xA => .opA
  | 0xB => .opB
  | 0xC => .opC
  | 0xD => .opD
  | 0xE => .opE
  | _ => .opF

/-- The opcode of a command (R62). -/
def Instr.opcode : Instr → BitVec 4
  | .nop => 0x0#4
  | .init => 0x1#4
  | .feed _ => 0x2#4
  | .finish => 0x3#4
  | .query => 0x4#4
  | .op5 => 0x5#4
  | .op6 => 0x6#4
  | .op7 => 0x7#4
  | .op8 => 0x8#4
  | .op9 => 0x9#4
  | .opA => 0xA#4
  | .opB => 0xB#4
  | .opC => 0xC#4
  | .opD => 0xD#4
  | .opE => 0xE#4
  | .opF => 0xF#4

/-- What a command puts on `cmd_data`: FEED its window (R63). In format C the bits are "don't care" (R61); the encoder
drives zeros there, DESIGN CHOICE (log entry 5), safe: the decoder reads none of them. A FEED term without exactly W bytes,
which is no command (R66), is driven as the window of its first W bytes, 0x00 in the lanes it has no byte for: DESIGN CHOICE
(log entry 19), unsafe for a claim about such a term. -/
def Instr.busData (w : Width) : Instr → BitVec (8 * w.bytes)
  | .feed cur => Machine.bus w cur
  | .nop | .init | .finish | .query => 0#_
  | .op5 | .op6 | .op7 | .op8 | .op9 | .opA | .opB | .opC | .opD | .opE | .opF => 0#_

/-- The encoder: the command word of a well-formed command (R61, R62, R63). For an ill-formed term see `Instr.busData` (log
entry 19). -/
def encode (w : Width) (i : Instr) : Command w :=
  { op := i.opcode, data := i.busData w }

/-- The command whose bits are the low `nbits` of `word`: `cmd_op` is bits 3..0, as spec/opcode_table.json numbers it,
and `cmd_data` the bits above. R61 gives the two fields and the total length 4 + 8·W, not their places in one number:
DESIGN CHOICE (log entry 4), safe: the block receives two ports, never this number. A word of fewer than 4 + 8·W bits is
none of R61's; its missing bits are read as 0, so a FEED row of 4 bits stands for FEED of the all-zero window: DESIGN
CHOICE (log entry 4), safe. -/
def Command.ofTableWord (w : Width) (nbits word : Nat) : Command w :=
  { op := BitVec.ofNat 4 (word % 2 ^ nbits)
    data := BitVec.ofNat (8 * w.bytes) (word % 2 ^ nbits / 16) }

/-- What the decoder reads from an instruction of the opcode table, at the width of `State.reset`. -/
def decodeTableWord (nbits w : Nat) : Option Instr :=
  some (decode (Command.ofTableWord Config.resetWidth nbits w))

end Sys2Proof
end

