-- ==== Sys2Proof/Machine/State.lean ====
section
/-! DEFINITION. The machine's state (10_state R20), its ports (20_memory R47), the reasons a step can stop, and the reset state (10_state R33, 70_reset R230, R231). -/

namespace Sys2Proof.Machine

/-- A step of the block never faults: "No behaviour of this block is fault or stuck" (93 part 1; 60_exceptions R200).
So there is no reason. Safe (log entry 7). -/
inductive Fault where
  deriving DecidableEq, Repr

/-- Why the model answers no meaning. -/
inductive Refusal where
  /-- Raised by `exec`'s arm of an instruction that has no meaning yet (no arm raises it now). Safe. -/
  | notModelled (mnemonic : String)
  /-- Raised by FEED for a term whose window has not exactly W bytes: "not a command" (30_encoding R66). The decoder
  never gives such a term. Safe (log entry 6). -/
  | notOneWindow
  /-- Raised by the host's load for a window with an unreadable byte, the first one's address given: "A model refuses
  such a load and builds no FEED from it" (20_memory R42(b), 93 U2). Not raised by a step. Safe (log entry 9). -/
  | unreadable (address : Nat)
  deriving DecidableEq, Repr

/-- The state of one block: exactly R20's seven rows. -/
structure Block (w : Width) where
  /-- `prev_raw`: the raw bytes of the last slow-path window (R20, R22). -/
  prevRaw : Lanes w
  /-- `prev_hi`: the high nibbles of that window (R20, R22, R23). -/
  prevHi : Nibbles w
  /-- `prev_car`: the carried continuation lengths of that window (R20, R22, R24). -/
  prevCar : Lanes w
  /-- `has_error`: the lane-wise error accumulator (R20, R26). -/
  hasError : Lanes w
  /-- `fast`: the last accepted FEED took the fast path (R20, R30). -/
  fast : Bool
  /-- `done`: FINISH has been accepted since the last INIT (R20, R31). -/
  done : Bool
  /-- `ill`: a protocol violation has occurred since the last INIT (R20, R32). -/
  ill : Bool
  deriving DecidableEq, Repr

/-- The response ports of one step: `resp_valid` and `resp` (R47). -/
structure Response where
  valid : Bool
  value : Byte
  deriving DecidableEq, Repr

/-- No response: `resp_valid = 0`, and then `resp = 0x00` (R47). -/
def Response.none : Response := { valid := false, value := 0x00#8 }

/-- A response: `resp_valid = 1` with its value (R47). -/
def Response.some (v : Byte) : Response := { valid := true, value := v }

/-- What the host drives on one step: `rst`, `cmd_op` and `cmd_data` (R47). -/
structure PortIn (w : Width) where
  rst : Bool
  cmd : Command w
  deriving DecidableEq, Repr

/-- The whole machine: the block, the response ports of the step just made, and the steps the host still drives. -/
structure State where
  /-- The parameter W (R6). No step writes it (log entry 1). -/
  width : Width
  /-- The block's own state (R20). -/
  block : Block width
  /-- The response ports as the last step left them (R47; log entry 3). -/
  out : Response
  /-- The port values of the host's next steps, in issue order (R47, R48, R60; log entry 2). -/
  pending : List (PortIn width)
  deriving DecidableEq, Repr

/-- The state of R33: the all-zero sentinel, a clean accumulator, and `fast`, `done`, `ill` 0. -/
def Block.reset (w : Width) : Block w :=
  { prevRaw := Vector.replicate w.bytes 0x00#8
    prevHi := Vector.replicate w.bytes 0x0#4
    prevCar := Vector.replicate w.bytes 0x00#8
    hasError := Vector.replicate w.bytes 0x00#8
    fast := false
    done := false
    ill := false }

/-- The machine at power-on and after reset, at width `w` (R33, R230, R231), with nothing issued yet. -/
def State.resetAt (w : Width) : State :=
  { width := w, block := Block.reset w, out := Response.none, pending := [] }

/-- The machine right after reset. Its width is `Config.resetWidth` (log entry 1). -/
def State.reset : State := State.resetAt Config.resetWidth

end Sys2Proof.Machine
end

