-- ==== Sys2Proof/Machine/Ops.lean ====
section
/-! DEFINITION. The named operations: the byte operators (00_scope R11), the lane-wise window primitives (40_window_primitives R80 to R89), and the block's shared state operations (10_state R26, R32; 20_memory R47; 60_exceptions R203). -/

namespace Sys2Proof.Machine

/-! ### Byte operators (R11) -/

/-- `a ⊕ b = (a + b) mod 256` (R11, R88). -/
def addWrap (a b : Byte) : Byte := BitVec.ofNat 8 (a.toNat + b.toNat)

/-- `a ⊖ b = max(a − b, 0)`, unsigned saturating subtract (R11, R87). -/
def subSat (a b : Byte) : Byte := BitVec.ofNat 8 (a.toNat - b.toNat)

/-- `a >> k`, logical (R11). -/
def shiftRight (a : Byte) (k : Nat) : Byte := a >>> k

/-- `s8(a)`, the two's-complement reading (R11). -/
def s8 (a : Byte) : Int := if a.toNat < 128 then (a.toNat : Int) else (a.toNat : Int) - 256

/-- `a >u b` (R11). -/
def gtUnsigned (a b : Byte) : Bool := decide (b.toNat < a.toNat)

/-- `a >s b` (R11). -/
def gtSigned (a b : Byte) : Bool := decide (s8 b < s8 a)

/-- `zext_N(v)` (R11). No rule of the block uses it. -/
def zext {n : Nat} (N : Nat) (v : BitVec n) : BitVec N := v.setWidth N

/-- `sext_N(v)` (R11). No rule of the block uses it. -/
def sext {n : Nat} (N : Nat) (v : BitVec n) : BitVec N := v.signExtend N

/-- `mask(c)`: 0xFF if c holds, 0x00 if not (R11, R89). -/
def mask (c : Bool) : Byte := if c then 0xFF#8 else 0x00#8

/-- The high nibble of a byte, `b >> 4`, a value 0..15 (R14, R84). -/
def highNibble (b : Byte) : Nibble := (shiftRight b 4).setWidth 4

/-! ### Lane-wise primitives (R80 to R89) -/

/-- `map(v, f)[i] = f(v[i])` (R81). -/
def laneMap {α β : Type} {n : Nat} (f : α → β) (v : Vector α n) : Vector β n :=
  ⟨(v.toList.map f).toArray, by simp⟩

/-- `map_with(v, u, f)[i] = f(v[i], u[i])` (R81). -/
def laneMapWith {α β γ : Type} {n : Nat} (f : α → β → γ) (v : Vector α n) (u : Vector β n) : Vector γ n :=
  ⟨(List.zipWith f v.toList u.toList).toArray, by simp⟩

/-- A scalar operand "is broadcast to every lane first" (R81). -/
def broadcast (w : Width) (b : Byte) : Lanes w := Vector.replicate w.bytes b

/-- `reduce_or(v) = v[0] | v[1] | … | v[W−1]` (R82). -/
def reduceOr {w : Width} (v : Lanes w) : Byte := v.toList.foldl (fun a b => a ||| b) 0x00#8

/-- `any(v) = (reduce_or(v) ≠ 0)` (R83). -/
def anyLane {w : Width} (v : Lanes w) : Bool := decide (reduceOr v ≠ 0x00#8)

/-- `ascii(v) = ((reduce_or(v) & 0x80) = 0)`, the fast-path test (R83). -/
def ascii {w : Width} (v : Lanes w) : Bool := decide (reduceOr v &&& 0x80#8 = 0x00#8)

/-- `hi(v)[i] = v[i] >> 4` (R84). -/
def hiNibbles {w : Width} (v : Lanes w) : Nibbles w := laneMap highNibble v

/-- One entry `T[x]` of a 16-entry table; a 4-bit index is never out of range (R85). -/
def entry (T : Vector Byte 16) (x : Nibble) : Byte := T[x.toNat]'(x.isLt)

/-- `lookup16(T, x)[i] = T[x[i]]` (R85). -/
def lookup16 {w : Width} (T : Vector Byte 16) (x : Nibbles w) : Lanes w := laneMap (entry T) x

/-- `shift1(p, v)`: every lane the element one stream position earlier, lane 0 from the end of `p` (R86). -/
def shift1 {α : Type} {w : Width} (p v : Vector α w.bytes) : Vector α w.bytes :=
  ⟨(p.toList.drop (w.bytes - 1) ++ v.toList.take (w.bytes - 1)).toArray, by have := w.sixteen_le_bytes; simp⟩

/-- `shift2(p, v)`: every lane the element two stream positions earlier, lanes 0 and 1 from the end of `p` (R86). -/
def shift2 {α : Type} {w : Width} (p v : Vector α w.bytes) : Vector α w.bytes :=
  ⟨(p.toList.drop (w.bytes - 2) ++ v.toList.take (w.bytes - 2)).toArray, by have := w.sixteen_le_bytes; simp⟩

/-- `v ⊖ k`, lane-wise with a broadcast constant (R87). -/
def subSatK {w : Width} (v : Lanes w) (k : Byte) : Lanes w := laneMapWith subSat v (broadcast w k)

/-- `u ⊕ v`, lane-wise (R88). -/
def addLanes {w : Width} (u v : Lanes w) : Lanes w := laneMapWith addWrap u v

/-- `u | v`, lane-wise (R11, R89). -/
def orLanes {w : Width} (u v : Lanes w) : Lanes w := laneMapWith (fun a b => a ||| b) u v

/-- `u & v`, lane-wise (R11, R89). -/
def andLanes {w : Width} (u v : Lanes w) : Lanes w := laneMapWith (fun a b => a &&& b) u v

/-- `eq(u, v)[i] = mask(u[i] = v[i])` (R89). -/
def eqLanes {w : Width} (u v : Lanes w) : Lanes w := laneMapWith (fun a b => mask (decide (a = b))) u v

/-- `gtu(u, v)[i] = mask(u[i] >u v[i])` (R89). -/
def gtu {w : Width} (u v : Lanes w) : Lanes w := laneMapWith (fun a b => mask (gtUnsigned a b)) u v

/-- `gts(u, v)[i] = mask(u[i] >s v[i])` (R89). -/
def gts {w : Width} (u v : Lanes w) : Lanes w := laneMapWith (fun a b => mask (gtSigned a b)) u v

/-- `eqm(m1, m2)[i] = mask(m1[i] = m2[i])` for two masks (R89). -/
def eqm {w : Width} (m1 m2 : Lanes w) : Lanes w := laneMapWith (fun a b => mask (decide (a = b))) m1 m2

/-! ### The block's shared operations -/

/-- `err |= e`, the only write of the accumulator beside INIT and reset (00_scope R12, 10_state R26). -/
def Block.accumulate {w : Width} (b : Block w) (e : Lanes w) : Block w :=
  { b with hasError := orLanes b.hasError e }

/-- Protocol misuse: `ill <- 1` and every other piece of state unchanged (R157, R160, R165, 60_exceptions R203). The
block's one way to report a misuse: it has no exception to take (R200, R206). -/
def Block.violate {w : Width} (b : Block w) : Block w := { b with ill := true }

/-- The end of a command's step: the block's new state and the response ports, all written together (00_scope R13,
20_memory R47). -/
abbrev State.complete (s : State) (b : Block s.width) (r : Response) : State :=
  { s with block := b, out := r }

/-- A reserved opcode, in any state: ILL is set, nothing else changes, no response (R165). -/
def State.reservedOpcode (s : State) : State := s.complete s.block.violate Response.none

end Sys2Proof.Machine
end

