-- ==== Sys2Proof/Machine/Flags.lean ====
section
/-! DEFINITION. The status computations: ERR, STATUS, the output ports, and the verdict a response carries (10_state R27, R28; 20_memory R47; 41 R129; 70_reset R240, R241). -/

namespace Sys2Proof.Machine

/-- ERR, the document's `has_any_errors()`: 1 iff some lane of `has_error` is not zero (R27, R129). -/
def Block.err {w : Width} (b : Block w) : Bool := anyLane b.hasError

/-- STATUS = `{ 0000, ill, done, fast, ERR }`, ERR in bit 0 (R28, R162). -/
def Block.status {w : Width} (b : Block w) : Byte :=
  (0#4 ++ BitVec.ofBool b.ill ++ BitVec.ofBool b.done ++ BitVec.ofBool b.fast ++ BitVec.ofBool b.err).setWidth 8

/-- The values of the output ports (R47). -/
structure PortOut where
  err : Bool
  respValid : Bool
  resp : Byte
  deriving DecidableEq, Repr

/-- The output ports after a step: `err_o` equals ERR in every state (R47, 60_exceptions R205). -/
def State.ports (s : State) : PortOut :=
  { err := s.block.err, respValid := s.out.valid, resp := s.out.value }

/-- What a response says of the run whose result it is (70_reset R240, R241); `State.results` picks the results. -/
inductive Verdict where
  /-- DONE = 0: the run has not ended (R240, R241). -/
  | notEnded
  /-- DONE = 1, ERR = 0, ILL = 0: the stream fed was accepted. -/
  | valid
  /-- DONE = 1, ERR = 1, ILL = 0: invalid UTF-8. -/
  | invalid
  /-- DONE = 1, ILL = 1: the run broke the protocol, and ERR has no meaning as a verdict (R240, 93 U9). -/
  | noMeaning
  deriving DecidableEq, Repr

/-- The verdict of a response (R240). "This spec gives ERR no meaning as a verdict when ILL = 1" (93 U9), so R240's "invalid
iff ERR = 1" is read for runs with ILL = 0: DEDUCED (log entry 11), safe. -/
def verdictOf (resp : Byte) : Verdict :=
  if resp.getLsbD 2 = false then .notEnded
  else if resp.getLsbD 3 = true then .noMeaning
  else if resp.getLsbD 0 = true then .invalid
  else .valid

end Sys2Proof.Machine
end

