-- ==== Sys2Proof/Machine/Tables.lean ====
section
/-! DEFINITION. The block's constants: the byte-class table LEN, the overlong tables IMIN and SMIN, the sentinel S and the bounding bytes (40_window_primitives R90 to R94; 10_state R21). -/

namespace Sys2Proof.Machine

/-- `LEN`, the byte-class table (R90). -/
def lenTable : Vector Byte 16 := #v[1#8, 1#8, 1#8, 1#8, 1#8, 1#8, 1#8, 1#8, 0#8, 0#8, 0#8, 0#8, 2#8, 2#8, 3#8, 4#8]

/-- `IMIN`, the initial minimum of the byte one position back (R91). -/
def iminTable : Vector Byte 16 :=
  #v[0x80#8, 0x80#8, 0x80#8, 0x80#8, 0x80#8, 0x80#8, 0x80#8, 0x80#8, 0x80#8, 0x80#8, 0x80#8, 0x80#8, 0xC2#8, 0x80#8, 0xE1#8, 0xF1#8]

/-- `SMIN`, the second minimum (R92). -/
def sminTable : Vector Byte 16 :=
  #v[0x7F#8, 0x7F#8, 0x7F#8, 0x7F#8, 0x7F#8, 0x7F#8, 0x7F#8, 0x7F#8, 0x7F#8, 0x7F#8, 0x7F#8, 0x7F#8, 0x7F#8, 0x7F#8, 0xA0#8, 0x90#8]

/-- `S`, the sentinel vector: 9 in every lane but the last, which is 1 (R93). -/
def sentinel (w : Width) : Lanes w :=
  ⟨(List.replicate (w.bytes - 1) 9#8 ++ [1#8]).toArray, by cases w <;> rfl⟩

/-- The byte ceiling 0xF4 (R94). -/
def byteCeiling : Byte := 0xF4#8

/-- The leader whose second byte is at most `surrogateMax`: 0xED (R94). -/
def surrogateLeader : Byte := 0xED#8

/-- After 0xED the current byte must be ≤ 0x9F (R94). -/
def surrogateMax : Byte := 0x9F#8

/-- The leader whose second byte is at most `lastPlaneMax`: 0xF4 (R94). -/
def lastPlaneLeader : Byte := 0xF4#8

/-- After 0xF4 the current byte must be ≤ 0x8F (R94). -/
def lastPlaneMax : Byte := 0x8F#8

end Sys2Proof.Machine
end

