-- ==== Sys2Proof/Machine/Datapath.lean ====
section
/-! DEFINITION. The validator datapath: the fast path, the slow path's steps a to h, the tail check (41_validator_datapath R110 to R130). -/

namespace Sys2Proof.Machine

/-! ### Steps a to c: byte classes and the continuation decoder -/

/-- Step b: `init[i] = LEN[cur[i] >> 4]` (R114, R115). -/
def initLengths {w : Width} (cur : Lanes w) : Lanes w := lookup16 lenTable (hiNibbles cur)

/-- Step c, the one-position carry: `r1 = shift1(prev_car, init) ⊖ 1` (R116). -/
def carryOne {w : Width} (prevCar init : Lanes w) : Lanes w := subSatK (shift1 prevCar init) 1#8

/-- Step c, the running sum: `sum = init ⊕ r1` (R116). -/
def runningSum {w : Width} (prevCar init : Lanes w) : Lanes w := addLanes init (carryOne prevCar init)

/-- Step c, the two-position carry: `r2 = shift2(prev_car, sum) ⊖ 2` (R116). -/
def carryTwo {w : Width} (prevCar sum : Lanes w) : Lanes w := subSatK (shift2 prevCar sum) 2#8

/-- Step c from the initial lengths: `car = sum ⊕ r2` (R116). -/
def carriedOf {w : Width} (prevCar init : Lanes w) : Lanes w :=
  addLanes (runningSum prevCar init) (carryTwo prevCar (runningSum prevCar init))

/-- `carried(cur, prev_car)`: the carried lengths of a window (10_state R22, R116). -/
def carried {w : Width} (cur prevCar : Lanes w) : Lanes w := carriedOf prevCar (initLengths cur)

/-! ### Steps d to g: the checks -/

/-- Step d, length consistency: `eqm(gtu(car, init), gtu(init, 0))` (R119, conflict C1). -/
def errLen {w : Width} (car init : Lanes w) : Lanes w := eqm (gtu car init) (gtu init (broadcast w 0x00#8))

/-- Step e, the byte ceiling: `cur ⊖ 0xF4` (R120, conflict C2). -/
def errCeil {w : Width} (cur : Lanes w) : Lanes w := subSatK cur byteCeiling

/-- The byte one position back, across the window boundary (R121). -/
def off1 {w : Width} (prevRaw cur : Lanes w) : Lanes w := shift1 prevRaw cur

/-- Its high nibble, from the stored nibbles (R121). -/
def off1Hi {w : Width} (prevHi hi : Nibbles w) : Nibbles w := shift1 prevHi hi

/-- Step f, leader-specific second-byte bounds (R122). -/
def errMax2 {w : Width} (back cur : Lanes w) : Lanes w :=
  orLanes
    (andLanes (eqLanes back (broadcast w surrogateLeader)) (gtu cur (broadcast w surrogateMax)))
    (andLanes (eqLanes back (broadcast w lastPlaneLeader)) (gtu cur (broadcast w lastPlaneMax)))

/-- Step g, overlong lower bounds, both compares signed (R124, conflict C4). -/
def errOver {w : Width} (back : Lanes w) (backHi : Nibbles w) (cur : Lanes w) : Lanes w :=
  andLanes (gts (lookup16 iminTable backHi) back) (gts (lookup16 sminTable backHi) cur)

/-- The slow path's error vector: the four checks ORed (R126). -/
def slowError {w : Width} (b : Block w) (cur : Lanes w) : Lanes w :=
  orLanes
    (orLanes
      (orLanes (errLen (carried cur b.prevCar) (initLengths cur)) (errCeil cur))
      (errMax2 (off1 b.prevRaw cur) cur))
    (errOver (off1 b.prevRaw cur) (off1Hi b.prevHi (hiNibbles cur)) cur)

/-! ### Steps 1 and 3: the sentinel compares -/

/-- Step 1's error vector, `e_ascii = gtu(prev_car, S)` (R111). -/
def errAscii {w : Width} (prevCar : Lanes w) : Lanes w := gtu prevCar (sentinel w)

/-- Step 3's error vector, `e_tail = gtu(prev_car, S)` (R128). -/
def errTail {w : Width} (prevCar : Lanes w) : Lanes w := gtu prevCar (sentinel w)

/-! ### The combined functions -/

/-- FAST(cur): the accumulator and FAST only; `previous` is not written (R111, R112, R154). -/
def fastWindow {w : Width} (b : Block w) : Block w :=
  { b.accumulate (errAscii b.prevCar) with fast := true }

/-- SLOW(cur): the four checks, then the new `previous`, all from the old state (R113, R126, R127, R155). -/
def slowWindow {w : Width} (b : Block w) (cur : Lanes w) : Block w :=
  { b.accumulate (slowError b cur) with
    prevRaw := cur
    prevHi := hiNibbles cur
    prevCar := carried cur b.prevCar
    fast := false }

/-- `window_step(s, cur)`: the path is chosen by the window alone (R110, R130). -/
def windowStep {w : Width} (b : Block w) (cur : Lanes w) : Block w :=
  if ascii cur then fastWindow b else slowWindow b cur

/-- An accepted FINISH: the tail check and DONE (R128, R159). -/
def tailCheck {w : Width} (b : Block w) : Block w :=
  { b.accumulate (errTail b.prevCar) with done := true }

end Sys2Proof.Machine
end

