-- ==== Sys2Proof/Machine/Control.lean ====
section
/-! DEFINITION. The control commands NOP, INIT and QUERY (42_commands R150, R151, R152, R162). -/

namespace Sys2Proof.Machine

/-- NOP: no state changes, no response (R150). -/
def execNop (s : State) : Host.Outcome State Fault Refusal :=
  .next (s.complete s.block Response.none)

/-- INIT: the state of R33, whatever the state and `cmd_data` (R151, R152). -/
def execInit (s : State) : Host.Outcome State Fault Refusal :=
  .next (s.complete (Block.reset s.width) Response.none)

/-- QUERY: the response is STATUS; no state changes (R162). -/
def execQuery (s : State) : Host.Outcome State Fault Refusal :=
  .next (s.complete s.block (Response.some s.block.status))

end Sys2Proof.Machine
end

