-- ==== Sys2Proof/Machine/Reserved.lean ====
section
/-! DEFINITION. The reserved opcodes 0x5 to 0xF: ILL is set and nothing else changes (42_commands R165, 30_encoding R64). -/

namespace Sys2Proof.Machine

/-- `.op 0x5` (R165). -/
def execOp5 (s : State) : Host.Outcome State Fault Refusal := .next s.reservedOpcode

/-- `.op 0x6` (R165). -/
def execOp6 (s : State) : Host.Outcome State Fault Refusal := .next s.reservedOpcode

/-- `.op 0x7` (R165). -/
def execOp7 (s : State) : Host.Outcome State Fault Refusal := .next s.reservedOpcode

/-- `.op 0x8` (R165). -/
def execOp8 (s : State) : Host.Outcome State Fault Refusal := .next s.reservedOpcode

/-- `.op 0x9` (R165). -/
def execOp9 (s : State) : Host.Outcome State Fault Refusal := .next s.reservedOpcode

/-- `.op 0xA` (R165). -/
def execOpA (s : State) : Host.Outcome State Fault Refusal := .next s.reservedOpcode

/-- `.op 0xB` (R165). -/
def execOpB (s : State) : Host.Outcome State Fault Refusal := .next s.reservedOpcode

/-- `.op 0xC` (R165). -/
def execOpC (s : State) : Host.Outcome State Fault Refusal := .next s.reservedOpcode

/-- `.op 0xD` (R165). -/
def execOpD (s : State) : Host.Outcome State Fault Refusal := .next s.reservedOpcode

/-- `.op 0xE` (R165). -/
def execOpE (s : State) : Host.Outcome State Fault Refusal := .next s.reservedOpcode

/-- `.op 0xF` (R165). -/
def execOpF (s : State) : Host.Outcome State Fault Refusal := .next s.reservedOpcode

end Sys2Proof.Machine
end

