-- ==== Sys2Proof/Machine/Window.lean ====
section
/-! DEFINITION. The window commands FEED and FINISH (42_commands R153 to R160). -/

namespace Sys2Proof.Machine

/-- FEED of a window: with `done = 1` only ILL is set and the window is discarded unread (R157); else `window_step`
(R154, R155). -/
def feedWindow {w : Width} (b : Block w) (cur : Lanes w) : Block w :=
  if b.done then b.violate else windowStep b cur

/-- FEED (R153). A term without exactly W bytes "is not a command" (30_encoding R66) and is refused. -/
def execFeed (cur : List Byte) (s : State) : Host.Outcome State Fault Refusal :=
  if h : cur.length = s.width.bytes then
    .next (s.complete (feedWindow s.block ⟨cur.toArray, by simpa using h⟩) Response.none)
  else .refused .notOneWindow

/-- FINISH on the block: with `done = 1` only ILL is set (R160); else the tail check and DONE (R159). -/
def finishRun {w : Width} (b : Block w) : Block w :=
  if b.done then b.violate else tailCheck b

/-- FINISH (R159, R160). -/
def execFinish (s : State) : Host.Outcome State Fault Refusal :=
  .next (s.complete (finishRun s.block) Response.none)

end Sys2Proof.Machine
end

