-- ==== Sys2Proof/Machine/Dispatch.lean ====
section
/-! DEFINITION. One arm per command: the meaning it has (42_commands R167). -/

namespace Sys2Proof.Machine

def exec (i : Instr) (s : State) : Host.Outcome State Fault Refusal :=
  match i with
  | .nop => Sys2Proof.Machine.execNop s
  | .init => Sys2Proof.Machine.execInit s
  | .feed cur => Sys2Proof.Machine.execFeed cur s
  | .finish => Sys2Proof.Machine.execFinish s
  | .query => Sys2Proof.Machine.execQuery s
  | .op5 => Sys2Proof.Machine.execOp5 s
  | .op6 => Sys2Proof.Machine.execOp6 s
  | .op7 => Sys2Proof.Machine.execOp7 s
  | .op8 => Sys2Proof.Machine.execOp8 s
  | .op9 => Sys2Proof.Machine.execOp9 s
  | .opA => Sys2Proof.Machine.execOpA s
  | .opB => Sys2Proof.Machine.execOpB s
  | .opC => Sys2Proof.Machine.execOpC s
  | .opD => Sys2Proof.Machine.execOpD s
  | .opE => Sys2Proof.Machine.execOpE s
  | .opF => Sys2Proof.Machine.execOpF s

end Sys2Proof.Machine
end

