-- ==== Sys2Proof/Machine/Reset.lean ====
section
/-! DEFINITION. The reset input (70_reset_and_hazards R230). -/

namespace Sys2Proof.Machine

/-- A step with `rst = 1`: the block enters the state of R33 and `resp_valid` is 0; the command of that step is ignored
(R230). -/
abbrev State.applyReset (s : State) : State := s.complete (Block.reset s.width) Response.none

end Sys2Proof.Machine
end

