-- ==== Sys2Proof/Machine/Step.lean ====
section
/-! DEFINITION. One step of the machine: one port value of the host taken and performed (30_encoding R60, 42_commands R167, 70_reset R230). -/

namespace Sys2Proof.Machine

/-- One step. The next port value is taken off `pending`; `rst = 1` overrides its command (R230), else the decoded command
is performed (R167). With nothing pending the step carries NOP (R60). -/
def step (s : State) : Host.Outcome State Fault Refusal :=
  match s.pending with
  | [] => exec .nop s
  | p :: rest =>
    if p.rst then .next { s with pending := rest }.applyReset
    else exec (decode p.cmd) { s with pending := rest }

/-- The state in which the next step takes the command whose bits are the low `nbits` of `w` (numbered as in
`Command.ofTableWord`), without reset: it is issued before everything else pending. It stands for the host driving the
command ports (log entry 12). -/
def State.withFetchWord (s : State) (nbits w : Nat) : State :=
  { s with pending := { rst := false, cmd := Command.ofTableWord s.width nbits w } :: s.pending }

end Sys2Proof.Machine
end

