-- ==== Sys2Proof/Machine/Driver.lean ====
section
/-! DEFINITION. The host's side of the command port: the window load, the buffer walk, the pseudo-commands, the issue of a program and the results of its runs (20_memory R42; 30_encoding R60, R67; 70_reset R233, R234, R240). -/

namespace Sys2Proof.Machine

/-! ### Loading from the host's buffer memory -/

/-- The host's buffer memory: (address, byte) cells, addresses strictly rising. An unlisted address is not readable
(R42(b); log entry 9). The block has no memory (R40): this is an argument of the host's functions, not state. -/
abbrev HostMemory := List Host.Cell

/-- The canonical form: addresses strictly rising. -/
abbrev HostMemory.wf (m : HostMemory) : Prop := m.Pairwise fun a b => a.1 < b.1

/-- One readable byte, or none. -/
def HostMemory.byteAt (m : HostMemory) (address : Nat) : Option Byte := m.lookup address

/-- Memory holding `bytes` from `start` upwards and nothing else. -/
def HostMemory.ofBytes (start : Nat) : List Byte → HostMemory
  | [] => []
  | b :: rest => (start, b) :: HostMemory.ofBytes (start + 1) rest

/-- `MemRead(addr, n)`: n bytes at consecutive addresses from `addr` upwards (00_scope R12). A byte that cannot be read
makes the load undefined, and it is refused (R42(b), 93 U2). -/
def memRead (m : HostMemory) (address : Nat) : Nat → Except Refusal (List Byte)
  | 0 => .ok []
  | n + 1 =>
    match m.byteAt address with
    | none => .error (.unreadable address)
    | some b =>
      match memRead m (address + 1) n with
      | .ok bytes => .ok (b :: bytes)
      | .error r => .error r

/-- A window at byte address `base`, of any alignment: `cur[i] = MemRead(base + i, 1)` (R42). -/
def loadWindow (w : Width) (m : HostMemory) (base : Nat) : Except Refusal (List Byte) := memRead m base w.bytes

/-- `ceil(len / W)`, the number of windows of a buffer of `len` bytes (R42(c), 70_reset R234). -/
def windowCount (w : Width) (len : Nat) : Nat := (len + (w.bytes - 1)) / w.bytes

/-- The FEEDs of `count` consecutive windows loaded from `base` upwards, `W` addresses apart (R42(c), R41). -/
def feedsFrom (w : Width) (m : HostMemory) (base : Nat) : Nat → Except Refusal (List Instr)
  | 0 => .ok []
  | n + 1 =>
    match loadWindow w m base with
    | .error r => .error r
    | .ok cur =>
      match feedsFrom w m (base + w.bytes) n with
      | .ok rest => .ok (.feed cur :: rest)
      | .error r => .error r

/-- The run of a buffer of `len` bytes at `start`: INIT, one FEED per window in order, FINISH, QUERY (R233, R234). The
host's memory already holds the pad bytes past the logical end (R238). -/
def runOfBuffer (w : Width) (m : HostMemory) (start len : Nat) : Except Refusal (List Instr) :=
  match feedsFrom w m start (windowCount w len) with
  | .ok feeds => .ok (.init :: feeds ++ [.finish, .query])
  | .error r => .error r

/-! ### Pseudo-commands (R67) -/

/-- Bytes filled up to W with the pad byte. -/
def padded (w : Width) (pad : Byte) (bytes : List Byte) : List Byte :=
  bytes ++ List.replicate (w.bytes - bytes.length) pad

/-- `FEEDPAD b0 … b(k−1)` with 1 ≤ k ≤ W (R67); none for another count. -/
def feedPad (w : Width) (pad : Byte) (bytes : List Byte) : Option Instr :=
  if 1 ≤ bytes.length ∧ bytes.length ≤ w.bytes then some (.feed (padded w pad bytes)) else none

/-- Window k of a byte stream, filled with the pad byte where the stream ends inside it (R67, R234). -/
def streamWindow (w : Width) (pad : Byte) (bytes : List Byte) (k : Nat) : List Byte :=
  padded w pad ((bytes.drop (k * w.bytes)).take w.bytes)

/-- The windows of a byte stream, in order (R41, R67, R234). -/
def streamWindows (w : Width) (pad : Byte) (bytes : List Byte) : List (List Byte) :=
  (List.range (windowCount w bytes.length)).map (streamWindow w pad bytes)

/-- `VALIDATE b0 … b(n−1)`: INIT, one FEED per slice, the last one padded, FINISH, QUERY (R67). -/
def validate (w : Width) (pad : Byte) (bytes : List Byte) : List Instr :=
  .init :: (streamWindows w pad bytes).map .feed ++ [.finish, .query]

/-! ### Issuing -/

/-- One command on the port, without reset (R47, R60). -/
def portOf (w : Width) (i : Instr) : PortIn w := { rst := false, cmd := encode w i }

/-- The host issues a program after what is already pending: its commands are driven one a step, in list order (R60).
A program is a list of well-formed commands; of another term what `encode` drives is driven, DESIGN CHOICE (log entry 19). -/
def State.issue (s : State) (program : List Instr) : State :=
  { s with pending := s.pending ++ program.map (portOf s.width) }

/-- The host drives one reset step after what is already pending (70_reset R230). What stands on `cmd_op` then is ignored. -/
def State.issueReset (s : State) : State :=
  { s with pending := s.pending ++ [{ rst := true, cmd := encode s.width .nop }] }

/-! ### Runs and their results (R233, R240) -/

/-- What the next step performs: nothing where it is a reset step (70_reset R230), else the decoded command, NOP when the
host drives nothing (30_encoding R60). -/
def State.performs (s : State) : Option Instr :=
  match s.pending with
  | [] => some .nop
  | p :: _ => if p.rst then none else some (decode p.cmd)

/-- The next step starts a run: INIT or reset (R233). -/
def State.startsRun (s : State) : Bool := s.performs == none || s.performs == some .init

/-- The next step is a QUERY in a state with `done = 1` (R240). -/
def State.endsRun (s : State) : Bool := s.block.done && s.performs == some .query

/-- The results of the runs in the next `n` steps, in order: of each run the response to "the first QUERY in a state with
`done = 1`" (R240). `ended` says that the run going on has had its result; a later QUERY gives none until a run starts. -/
def resultsOf : Nat → Bool → State → List Byte
  | 0, _, _ => []
  | n + 1, ended, s =>
    match step s with
    | .next t =>
      if s.endsRun && !ended then t.out.value :: resultsOf n true t
      else resultsOf n (ended && !s.startsRun) t
    | .fault _ => []
    | .refused _ => []

/-- The results of the runs of everything pending; the run going on has had none yet. -/
def State.results (s : State) : List Byte := resultsOf s.pending.length false s

end Sys2Proof.Machine
end

