-- ==== Sys2Proof/Machine/Assembler.lean ====
section
/-! DEFINITION. The assembler's text form of commands and pseudo-commands (30_encoding R66, R67). Text is a list of characters. -/

namespace Sys2Proof.Machine

/-! ### Characters -/

/-- What separates tokens: a space, a tab, a carriage return. DESIGN CHOICE (log entry 14), safe. -/
def isBlank (c : Char) : Bool := c == ' ' || c == '\t' || c == '\r'

/-- The value of a hexadecimal digit; both letter cases. DESIGN CHOICE (log entry 14), safe. -/
def hexDigit (c : Char) : Option (BitVec 4) :=
  if '0' ≤ c ∧ c ≤ '9' then some (BitVec.ofNat 4 (c.toNat - 48))
  else if 'A' ≤ c ∧ c ≤ 'F' then some (BitVec.ofNat 4 (c.toNat - 55))
  else if 'a' ≤ c ∧ c ≤ 'f' then some (BitVec.ofNat 4 (c.toNat - 87))
  else none

/-- The upper-case digit of a 4-bit value. -/
def digitChar (d : BitVec 4) : Char := if d.toNat < 10 then Char.ofNat (48 + d.toNat) else Char.ofNat (55 + d.toNat)

/-- A byte as a two-digit hexadecimal number (R66). -/
def hexByte : List Char → Option Byte
  | [a, b] =>
    match hexDigit a, hexDigit b with
    | some x, some y => some (x ++ y)
    | _, _ => none
  | _ => none

/-- A byte's two digits (R66). -/
def byteChars (b : Byte) : List Char := [digitChar (b.extractLsb' 4 4), digitChar (b.extractLsb' 0 4)]

/-! ### Lines and tokens -/

/-- The lines of a text: one command a line (R66). -/
def splitLines : List Char → List (List Char)
  | [] => [[]]
  | c :: cs =>
    if c == '\n' then [] :: splitLines cs
    else
      match splitLines cs with
      | l :: ls => (c :: l) :: ls
      | [] => [[c]]

/-- A line without its comment: `;` starts one (R66). -/
def dropComment (line : List Char) : List Char := line.takeWhile fun c => c != ';'

/-- Whether the text goes on with the same token. -/
def goesOn : List Char → Bool
  | [] => false
  | c :: _ => !isBlank c

/-- A character before tokens: part of the first one, or a token of its own. -/
def glue (c : Char) : Bool → List (List Char) → List (List Char)
  | true, t :: ts => (c :: t) :: ts
  | true, [] => [[c]]
  | false, ts => [c] :: ts

/-- The maximal runs of characters that are not blank. -/
def tokens : List Char → List (List Char)
  | [] => []
  | c :: cs => if isBlank c then tokens cs else glue c (goesOn cs) (tokens cs)

/-! ### The assembler -/

/-- All byte tokens, or none if one of them is no byte. -/
def hexBytes : List (List Char) → Option (List Byte)
  | [] => some []
  | t :: ts =>
    match hexByte t, hexBytes ts with
    | some b, some bs => some (b :: bs)
    | _, _ => none

/-- `.op 0xN`: a raw command with opcode N in format C (R66). Opcode 2 is format D, so `.op 0x2` names no command and is
refused: DESIGN CHOICE (log entry 14), safe. -/
def rawCommand (w : Width) (n : BitVec 4) : Option Instr :=
  if n = 2#4 then none else some (decode (w := w) { op := n, data := 0#_ })

/-- The commands of one line's tokens, pseudo-commands expanded; none where the assembler refuses the line (R66, R67). A
line without a token, empty or only a comment, is accepted and gives no command, where R66 is silent: DESIGN CHOICE (log
entry 14), safe. -/
def assembleTokens (w : Width) (pad : Byte) : List (List Char) → Option (List Instr)
  | [] => some []
  | m :: args =>
    if m = ['N', 'O', 'P'] then if args = [] then some [.nop] else none
    else if m = ['I', 'N', 'I', 'T'] then if args = [] then some [.init] else none
    else if m = ['F', 'I', 'N', 'I', 'S', 'H'] then if args = [] then some [.finish] else none
    else if m = ['Q', 'U', 'E', 'R', 'Y'] then if args = [] then some [.query] else none
    else if m = ['F', 'E', 'E', 'D'] then
      match hexBytes args with
      | some bs => if bs.length = w.bytes then some [.feed bs] else none
      | none => none
    else if m = ['F', 'E', 'E', 'D', 'P', 'A', 'D'] then
      match hexBytes args with
      | some bs => (feedPad w pad bs).map fun i => [i]
      | none => none
    else if m = ['V', 'A', 'L', 'I', 'D', 'A', 'T', 'E'] then (hexBytes args).map (validate w pad)
    else if m = ['.', 'o', 'p'] then
      match args with
      | [['0', 'x', d]] =>
        match hexDigit d with
        | some n => (rawCommand w n).map fun i => [i]
        | none => none
      | _ => none
    else none

/-- One line of text (R66). -/
def assembleLine (w : Width) (pad : Byte) (line : List Char) : Option (List Instr) :=
  assembleTokens w pad (tokens (dropComment line))

/-- All lines, or none if the assembler refuses one of them. -/
def assembleLines (w : Width) (pad : Byte) : List (List Char) → Option (List Instr)
  | [] => some []
  | l :: ls =>
    match assembleLine w pad l, assembleLines w pad ls with
    | some a, some b => some (a ++ b)
    | _, _ => none

/-- A whole text, one command a line (R66). -/
def assemble (w : Width) (pad : Byte) (text : List Char) : Option (List Instr) :=
  assembleLines w pad (splitLines text)

/-- The textual form of a command (R66). -/
def textOf : Instr → List Char
  | .nop => ['N', 'O', 'P']
  | .init => ['I', 'N', 'I', 'T']
  | .feed cur => ['F', 'E', 'E', 'D'] ++ cur.flatMap fun b => ' ' :: byteChars b
  | .finish => ['F', 'I', 'N', 'I', 'S', 'H']
  | .query => ['Q', 'U', 'E', 'R', 'Y']
  | .op5 => ['.', 'o', 'p', ' ', '0', 'x', '5']
  | .op6 => ['.', 'o', 'p', ' ', '0', 'x', '6']
  | .op7 => ['.', 'o', 'p', ' ', '0', 'x', '7']
  | .op8 => ['.', 'o', 'p', ' ', '0', 'x', '8']
  | .op9 => ['.', 'o', 'p', ' ', '0', 'x', '9']
  | .opA => ['.', 'o', 'p', ' ', '0', 'x', 'A']
  | .opB => ['.', 'o', 'p', ' ', '0', 'x', 'B']
  | .opC => ['.', 'o', 'p', ' ', '0', 'x', 'C']
  | .opD => ['.', 'o', 'p', ' ', '0', 'x', 'D']
  | .opE => ['.', 'o', 'p', ' ', '0', 'x', 'E']
  | .opF => ['.', 'o', 'p', ' ', '0', 'x', 'F']

end Sys2Proof.Machine
end

