-- ==== Sys2Proof/Machine/Bank.lean ====
section
/-! DEFINITION. Several blocks side by side, each with its own state (10_state R34; 20_memory R53; 60_exceptions R212). -/

namespace Sys2Proof.Machine

/-- Several blocks. A block has no identifier of its own (R212); the position in the list is the host's name for it. -/
abbrev Bank := List State

/-- One step of block number `k`: no command of one block affects another (R53; log entry 15). With no such block
nothing happens. -/
def stepOf (bank : Bank) (k : Nat) : Host.Outcome Bank Fault Refusal :=
  match bank[k]? with
  | none => .next bank
  | some s =>
    match step s with
    | .next t => .next (bank.set k t)
    | .fault r => .fault r
    | .refused r => .refused r

end Sys2Proof.Machine
end

