-- ==== Sys2Proof/Machine/Companion.lean ====
section
/-! DEFINITION. The companion functions outside the block: BitOps and the window helpers the validator does not use (48_companion_bitops R180 to R191). No command calls them. -/

namespace Sys2Proof.Machine

/-! ### BitOps, on unsigned words of 64 bits (R180) -/

/-- `trailing_zero_count(x)`: the least i with `x[i] = 1`. At x = 0 the result is unspecified: the free value of draw
number `draw` (R181, 93 U1; log entry 10). -/
def trailingZeroCount (draw : Nat) (x : BitVec 64) : BitVec 64 :=
  match (List.range 64).find? fun i => x.getLsbD i with
  | some i => BitVec.ofNat 64 i
  | none => Config.freeTrailingZeroCount draw

/-- `leading_zero_count(x)`: 63 − j for the highest set bit j, and 64 at x = 0 (R182). -/
def leadingZeroCount (x : BitVec 64) : BitVec 64 :=
  match (List.range 64).find? fun i => x.getLsbD (63 - i) with
  | some i => BitVec.ofNat 64 i
  | none => 64#64

/-- `clear_lowest_set_bit(x) = x & (x − 1 mod 2^64)` (R183). -/
def clearLowestSetBit (x : BitVec 64) : BitVec 64 := x &&& (x - 1#64)

/-- `population_count(x)`: the number of set bits of the whole word (R184). -/
def populationCount (x : BitVec 64) : BitVec 64 :=
  BitVec.ofNat 64 ((List.range 64).countP fun i => x.getLsbD i)

/-- `checked_add(a, b) = ((a + b) mod 2^64, a + b ≥ 2^64)` (R185). -/
def checkedAdd (a b : BitVec 64) : BitVec 64 × Bool :=
  (BitVec.ofNat 64 (a.toNat + b.toNat), decide (2 ^ 64 ≤ a.toNat + b.toNat))

/-- `checked_mul(a, b) = ((a · b) mod 2^64, a · b ≥ 2^64)` (R186). -/
def checkedMul (a b : BitVec 64) : BitVec 64 × Bool :=
  (BitVec.ofNat 64 (a.toNat * b.toNat), decide (2 ^ 64 ≤ a.toNat * b.toNat))

/-! ### Window helpers (R187 to R191) -/

/-- Construct from lane values: `v[i] = bi` (R187). None for a list without exactly W bytes. -/
def windowOfLanes (w : Width) (bytes : List Byte) : Option (Lanes w) :=
  if h : bytes.length = w.bytes then some ⟨bytes.toArray, by simpa using h⟩ else none

/-- `for_each_lane(f)`: f consumes the whole window once, since a window has one register lane; the side effect is a
change of `σ` (R188; log entry 13). -/
def forEachLane {σ : Type} {w : Width} (f : Lanes w → σ → σ) (v : Lanes w) (s : σ) : σ := f v s

/-- `for_each_lane` of a surrounding system with several registers per window: f runs once per register, lowest
addresses first (R188). -/
def forEachRegister {σ : Type} {w : Width} (f : Lanes w → σ → σ) (regs : List (Lanes w)) (s : σ) : σ :=
  regs.foldl (fun acc r => forEachLane f r acc) s

/-- A W-bit word with bit i = `f(v[i])`: bit 0 is the first byte (R189). -/
def bitmaskBy {w : Width} (f : Byte → Bool) (v : Lanes w) : BitVec w.bytes := BitVec.ofFnLE fun i => f v[i.val]

/-- `to_bitmask(v)`: bit i is bit 7 of `v[i]` (R189). -/
def toBitmask {w : Width} (v : Lanes w) : BitVec w.bytes := bitmaskBy (fun b => b.getLsbD 7) v

/-- `equals_byte(v, m)`: bit i = 1 iff `v[i] = m` (R190). -/
def equalsByte {w : Width} (v : Lanes w) (m : Byte) : BitVec w.bytes := bitmaskBy (fun b => decide (b = m)) v

/-- `less_or_equal_byte(v, m)`: bit i = 1 iff `v[i] ≤ m`, unsigned (R190). -/
def lessOrEqualByte {w : Width} (v : Lanes w) (m : Byte) : BitVec w.bytes :=
  bitmaskBy (fun b => decide (b.toNat ≤ m.toNat)) v

/-- `bitwise_or_byte(v, m)`: `u[i] = v[i] | m` (R191). -/
def bitwiseOrByte {w : Width} (v : Lanes w) (m : Byte) : Lanes w := laneMap (fun b => b ||| m) v

end Sys2Proof.Machine
end

