-- ==== Sys2Proof/Safety.lean ====
section
/-! DEFINITION. What claims are stated in: the invariants of 10_state R23 and R24, a run of windows, and the reference grammar of well-formed UTF-8 (93 G1). -/

namespace Sys2Proof.Machine

/-! ### Invariants -/

/-- `prev_hi[i] = prev_raw[i] >> 4` for every lane i (R23). -/
abbrev Block.HiAgrees {w : Width} (b : Block w) : Prop :=
  ∀ i, (h : i < w.bytes) → b.prevHi[i].toNat = b.prevRaw[i].toNat / 16

/-- The largest value lane i of `prev_car` reaches (R24). -/
def carBound (i : Nat) : Nat :=
  if i = 0 then 25 else if i = 1 then 17 else if i = 2 then 20 else 12

/-- `prev_car[0] ≤ 25`, `prev_car[1] ≤ 17`, `prev_car[2] ≤ 20`, `prev_car[i] ≤ 12` for 3 ≤ i (R24). -/
abbrev Block.CarBounded {w : Width} (b : Block w) : Prop :=
  ∀ i, (h : i < w.bytes) → b.prevCar[i].toNat ≤ carBound i

/-- The invariant of every reachable state: R23 and R24 together. -/
abbrev Block.Inv {w : Width} (b : Block w) : Prop := b.HiAgrees ∧ b.CarBounded

/-! ### Runs of windows -/

/-- The block after the given windows are fed in order to an unfinished run (20_memory R41, R48). -/
def feedAll {w : Width} (b : Block w) (windows : List (Lanes w)) : Block w :=
  windows.foldl windowStep b

/-- The bytes of the given windows, in stream order (R41). -/
def streamOf {w : Width} (windows : List (Lanes w)) : List Byte := windows.flatMap Vector.toList

/-- The reserved opcodes (30_encoding R64). -/
def reservedOpcodes : List Instr := [.op5, .op6, .op7, .op8, .op9, .opA, .opB, .opC, .opD, .opE, .opF]

/-- The other reading of conflict C3, which the spec does not take: an ASCII window, too, replaces `previous` (41 R112,
R132). Only a claim names it. -/
def windowStepOverwriting {w : Width} (b : Block w) (cur : Lanes w) : Block w :=
  if ascii cur then
    { fastWindow b with prevRaw := cur, prevHi := hiNibbles cur, prevCar := carried cur b.prevCar }
  else slowWindow b cur

/-- `feedAll` under that reading. -/
def feedAllOverwriting {w : Width} (b : Block w) (windows : List (Lanes w)) : Block w :=
  windows.foldl windowStepOverwriting b

/-! ### The reference grammar

Supplied by the spec from general knowledge for cross-checking only (93 G1, 95 section 5); no rule of the block and no
definition of the machine depends on it. PRESUMED (log entry 16): unsafe only for a claim that names it. -/

/-- `lo ≤ b ≤ hi`, unsigned. -/
abbrev inRange (lo hi : Nat) (b : Byte) : Prop := lo ≤ b.toNat ∧ b.toNat ≤ hi

/-- A well-formed UTF-8 sequence of one character, one constructor per row of the table (93 G1). -/
inductive Utf8Char : List Byte → Prop where
  | ascii {a : Byte} : inRange 0x00 0x7F a → Utf8Char [a]
  | two {a b : Byte} : inRange 0xC2 0xDF a → inRange 0x80 0xBF b → Utf8Char [a, b]
  | threeE0 {a b c : Byte} : inRange 0xE0 0xE0 a → inRange 0xA0 0xBF b → inRange 0x80 0xBF c → Utf8Char [a, b, c]
  | threeE1 {a b c : Byte} : inRange 0xE1 0xEC a → inRange 0x80 0xBF b → inRange 0x80 0xBF c → Utf8Char [a, b, c]
  | threeED {a b c : Byte} : inRange 0xED 0xED a → inRange 0x80 0x9F b → inRange 0x80 0xBF c → Utf8Char [a, b, c]
  | threeEE {a b c : Byte} : inRange 0xEE 0xEF a → inRange 0x80 0xBF b → inRange 0x80 0xBF c → Utf8Char [a, b, c]
  | fourF0 {a b c d : Byte} : inRange 0xF0 0xF0 a → inRange 0x90 0xBF b → inRange 0x80 0xBF c → inRange 0x80 0xBF d →
      Utf8Char [a, b, c, d]
  | fourF1 {a b c d : Byte} : inRange 0xF1 0xF3 a → inRange 0x80 0xBF b → inRange 0x80 0xBF c → inRange 0x80 0xBF d →
      Utf8Char [a, b, c, d]
  | fourF4 {a b c d : Byte} : inRange 0xF4 0xF4 a → inRange 0x80 0x8F b → inRange 0x80 0xBF c → inRange 0x80 0xBF d →
      Utf8Char [a, b, c, d]

/-- A well-formed UTF-8 byte string: a sequence of well-formed characters (93 G1). -/
inductive WellFormedUtf8 : List Byte → Prop where
  | nil : WellFormedUtf8 []
  | cons {c rest : List Byte} : Utf8Char c → WellFormedUtf8 rest → WellFormedUtf8 (c ++ rest)

end Sys2Proof.Machine
end

