-- ==== Sys2Proof/Certificates/Slice0/Obligations.lean ====
section
/-! DEFINITION. The statements for the provers. A window of the machine's width is written `cur : Lanes s.width`; as a FEED's operand it is `cur.toList`, which is every well-formed operand there is. Lanes of `has_error` and of `previous` are the block's inner state (41 R134, 60 R213; log entry 8): a reader of the block's ports relies on the statements about ERR, STATUS and the response. -/

open Sys2Proof Sys2Proof.Machine

/-! ### The commands: result, frame and completion -/

/-- R150: NOP leaves the state; the step has no response. -/
def Obligations.NopOnlyDropsTheResponse : Prop :=
  ∀ s : State, exec .nop s = .next { s with out := { valid := false, value := 0x00#8 } }

/-- R151: INIT completes in every state and leaves every piece of the block's state zero; it is the only command that
clears a bit of `has_error`, `done` or `ill`. -/
def Obligations.InitGivesTheZeroStateAndAloneClears : Prop :=
  (∀ s : State, ∃ b : Block s.width,
    exec .init s = .next { s with block := b, out := { valid := false, value := 0x00#8 } } ∧
      (∀ i, (h : i < s.width.bytes) →
        b.prevRaw[i] = 0x00#8 ∧ b.prevHi[i] = 0x0#4 ∧ b.prevCar[i] = 0x00#8 ∧ b.hasError[i] = 0x00#8) ∧
      b.fast = false ∧ b.done = false ∧ b.ill = false) ∧
  ∀ (i : Instr) (s : State) (b : Block s.width) (r : Response), i ≠ .init →
    exec i s = .next { s with block := b, out := r } →
      (∀ k, (h : k < s.width.bytes) → ∀ j, s.block.hasError[k].getLsbD j = true → b.hasError[k].getLsbD j = true) ∧
      (s.block.done = true → b.done = true) ∧ (s.block.ill = true → b.ill = true)

/-- R154 (with R111): FEED of a window whose every byte is below 0x80, before FINISH. -/
def Obligations.FeedOfAnAsciiWindowComparesTheSentinel : Prop :=
  ∀ (s : State) (cur : Lanes s.width), s.block.done = false →
    (∀ i, (h : i < s.width.bytes) → cur[i].toNat < 0x80) →
    ∃ b : Block s.width,
      exec (.feed cur.toList) s = .next { s with block := b, out := { valid := false, value := 0x00#8 } } ∧
        (∀ i, (h : i < s.width.bytes) → b.hasError[i] = s.block.hasError[i] |||
          (if (if i = s.width.bytes - 1 then 1 else 9) < s.block.prevCar[i].toNat then 0xFF#8 else 0x00#8)) ∧
        b.fast = true ∧ b.prevRaw = s.block.prevRaw ∧ b.prevHi = s.block.prevHi ∧ b.prevCar = s.block.prevCar ∧
        b.done = s.block.done ∧ b.ill = s.block.ill

/-- R155 (with R126, R127): FEED of any other window, before FINISH. The four check vectors and the carried lengths have
statements of their own below. -/
def Obligations.FeedOfAnotherWindowRunsTheChecks : Prop :=
  ∀ (s : State) (cur : Lanes s.width), s.block.done = false →
    (∃ i, ∃ h : i < s.width.bytes, 0x80 ≤ cur[i].toNat) →
    ∃ b : Block s.width,
      exec (.feed cur.toList) s = .next { s with block := b, out := { valid := false, value := 0x00#8 } } ∧
        (∀ i, (h : i < s.width.bytes) → b.hasError[i] = s.block.hasError[i] |||
          ((errLen (carried cur s.block.prevCar) (initLengths cur))[i] ||| (errCeil cur)[i] |||
            (errMax2 (off1 s.block.prevRaw cur) cur)[i] |||
            (errOver (off1 s.block.prevRaw cur) (off1Hi s.block.prevHi (hiNibbles cur)) cur)[i])) ∧
        b.prevRaw = cur ∧ (∀ i, (h : i < s.width.bytes) → b.prevHi[i].toNat = cur[i].toNat / 16) ∧
        b.prevCar = carried cur s.block.prevCar ∧ b.fast = false ∧ b.done = s.block.done ∧ b.ill = s.block.ill

/-- R157: FEED after FINISH sets ILL and leaves everything else, whatever the window. -/
def Obligations.FeedAfterFinishSetsOnlyIll : Prop :=
  ∀ (s : State) (cur : Lanes s.width), s.block.done = true →
    exec (.feed cur.toList) s =
      .next { s with block := { s.block with ill := true }, out := { valid := false, value := 0x00#8 } }

/-- 30_encoding R66: a FEED without exactly W bytes is not a command, and is refused. -/
def Obligations.FeedWithoutWBytesIsRefused : Prop :=
  ∀ (s : State) (cur : List Byte), cur.length ≠ s.width.bytes → exec (.feed cur) s = .refused .notOneWindow

/-- R159 (with R128): FINISH in an unfinished run. -/
def Obligations.FinishRunsTheTailCheck : Prop :=
  ∀ s : State, s.block.done = false → ∃ b : Block s.width,
    exec .finish s = .next { s with block := b, out := { valid := false, value := 0x00#8 } } ∧
      (∀ i, (h : i < s.width.bytes) → b.hasError[i] = s.block.hasError[i] |||
        (if (if i = s.width.bytes - 1 then 1 else 9) < s.block.prevCar[i].toNat then 0xFF#8 else 0x00#8)) ∧
      b.done = true ∧ b.prevRaw = s.block.prevRaw ∧ b.prevHi = s.block.prevHi ∧ b.prevCar = s.block.prevCar ∧
      b.fast = s.block.fast ∧ b.ill = s.block.ill

/-- R160: a second FINISH sets ILL and leaves everything else. -/
def Obligations.FinishAfterFinishSetsOnlyIll : Prop :=
  ∀ s : State, s.block.done = true →
    exec .finish s =
      .next { s with block := { s.block with ill := true }, out := { valid := false, value := 0x00#8 } }

/-- R162: QUERY completes in every state, changes no state, and responds with the four status bits. -/
def Obligations.QueryRespondsWithTheStatusBits : Prop :=
  ∀ s : State, ∃ r : Byte, exec .query s = .next { s with out := { valid := true, value := r } } ∧
    (r.getLsbD 0 = true ↔ ∃ i, ∃ h : i < s.width.bytes, s.block.hasError[i] ≠ 0x00#8) ∧
    r.getLsbD 1 = s.block.fast ∧ r.getLsbD 2 = s.block.done ∧ r.getLsbD 3 = s.block.ill ∧
    ∀ j, 4 ≤ j → r.getLsbD j = false

/-- R165: each of the eleven reserved opcodes completes in every state, sets ILL and leaves everything else. -/
def Obligations.ReservedOpcodesSetOnlyIll : Prop :=
  ∀ s : State, ∀ i ∈ reservedOpcodes,
    exec i s = .next { s with block := { s.block with ill := true }, out := { valid := false, value := 0x00#8 } }

/-- 60_exceptions R200: every command completes in its step, and so does every step; the width stays (log entry 1). -/
def Obligations.EveryCommandAndStepCompletes : Prop :=
  (∀ (i : Instr) (s : State), i.WellFormed s.width → ∃ t, exec i s = .next t ∧ t.width = s.width) ∧
    ∀ s : State, ∃ t, step s = .next t ∧ t.width = s.width

/-! ### The datapath -/

/-- R115 (with R90): the initial length of every byte. -/
def Obligations.InitialLengthByByteClass : Prop :=
  ∀ (w : Width) (cur : Lanes w) (i : Nat) (h : i < w.bytes), (initLengths cur)[i].toNat =
    if cur[i].toNat ≤ 0x7F then 1 else if cur[i].toNat ≤ 0xBF then 0 else if cur[i].toNat ≤ 0xDF then 2
    else if cur[i].toNat ≤ 0xEF then 3 else 4

/-- R116: the continuation decoder, written out per lane: `r1`, `sum`, `r2` and `car`. -/
def Obligations.ContinuationDecoderPerLane : Prop :=
  ∀ (w : Width) (cur p r1 sum r2 : Lanes w), r1 = carryOne p (initLengths cur) →
    sum = runningSum p (initLengths cur) → r2 = carryTwo p sum →
    ∀ i, (h : i < w.bytes) →
      (i = 0 → r1[i].toNat = p[w.bytes - 1].toNat - 1 ∧ r2[i].toNat = p[w.bytes - 2].toNat - 2) ∧
      (1 ≤ i → r1[i].toNat = (initLengths cur)[i - 1].toNat - 1) ∧
      (i = 1 → r2[i].toNat = p[w.bytes - 1].toNat - 2) ∧
      (2 ≤ i → r2[i].toNat = sum[i - 2].toNat - 2) ∧
      sum[i].toNat = ((initLengths cur)[i].toNat + r1[i].toNat) % 256 ∧
      (carried cur p)[i].toNat = (sum[i].toNat + r2[i].toNat) % 256

/-- R119: a lane is in error iff the two conditions are equal. -/
def Obligations.LengthCheckPerLane : Prop :=
  ∀ (w : Width) (car init : Lanes w) (i : Nat) (h : i < w.bytes), (errLen car init)[i] =
    if 0 < init[i].toNat ∧ init[i].toNat < car[i].toNat ∨ init[i].toNat = 0 ∧ car[i].toNat = 0 then 0xFF#8 else 0x00#8

/-- R120: the byte ceiling, the non-zero value ORed as it is. -/
def Obligations.CeilingCheckPerLane : Prop :=
  ∀ (w : Width) (cur : Lanes w) (i : Nat) (h : i < w.bytes),
    (errCeil cur)[i].toNat = cur[i].toNat - 0xF4 ∧ ((errCeil cur)[i] ≠ 0x00#8 ↔ 0xF4 < cur[i].toNat)

/-- R122 (over R121's `off1`): the second byte after 0xED and after 0xF4, lane 0 reading the previous window's last byte. -/
def Obligations.SecondByteBoundsPerLane : Prop :=
  ∀ (w : Width) (prevRaw cur : Lanes w) (i : Nat) (h : i < w.bytes) (back : Byte),
    back = (if i = 0 then prevRaw[w.bytes - 1] else cur[i - 1]) →
    (off1 prevRaw cur)[i] = back ∧
      (errMax2 (off1 prevRaw cur) cur)[i] =
        if back.toNat = 0xED ∧ 0x9F < cur[i].toNat ∨ back.toNat = 0xF4 ∧ 0x8F < cur[i].toNat then 0xFF#8 else 0x00#8

/-- R124 (with R91, R92): the overlong check, both compares signed, for any bytes and any stored nibbles. -/
def Obligations.OverlongCheckPerLane : Prop :=
  ∀ (w : Width) (back cur : Lanes w) (backHi : Nibbles w) (i : Nat) (h : i < w.bytes) (imin smin : Byte),
    imin = (if backHi[i] = 0xC#4 then 0xC2#8 else if backHi[i] = 0xE#4 then 0xE1#8
      else if backHi[i] = 0xF#4 then 0xF1#8 else 0x80#8) →
    smin = (if backHi[i] = 0xE#4 then 0xA0#8 else if backHi[i] = 0xF#4 then 0x90#8 else 0x7F#8) →
    (errOver back backHi cur)[i] =
      if back[i].toInt < imin.toInt ∧ cur[i].toInt < smin.toInt then 0xFF#8 else 0x00#8

/-- 41 R125 (the spec's own derivation): the overlong check of a fed window by byte values, in every lane of every state in
which the stored nibbles are those of the stored bytes. -/
def Obligations.OverlongCheckByByteValues : Prop :=
  ∀ (w : Width) (b : Block w) (cur : Lanes w), b.HiAgrees →
    ∀ i, (h : i < w.bytes) → ∀ back : Byte, back = (if i = 0 then b.prevRaw[w.bytes - 1] else cur[i - 1]) →
      ((errOver (off1 b.prevRaw cur) (off1Hi b.prevHi (hiNibbles cur)) cur)[i] ≠ 0x00#8 ↔
        ((back.toNat = 0xC0 ∨ back.toNat = 0xC1) ∧ cur[i].toNat ≠ 0x7F) ∨
          (back.toNat = 0xE0 ∧ 0x80 ≤ cur[i].toNat ∧ cur[i].toNat ≤ 0x9F) ∨
          (back.toNat = 0xF0 ∧ 0x80 ≤ cur[i].toNat ∧ cur[i].toNat ≤ 0x8F))

/-- 41 R135 (the spec's own derivation): when an ASCII window raises ERR. -/
def Obligations.AsciiWindowRaisesErrAfterACutSequence : Prop :=
  ∀ (s t : State) (cur : Lanes s.width), s.block.done = false → s.ports.err = false →
    (∀ i, (h : i < s.width.bytes) → cur[i].toNat < 0x80) → exec (.feed cur.toList) s = .next t →
    (t.ports.err = true ↔
      ∃ i, ∃ h : i < s.width.bytes, i = s.width.bytes - 1 ∧ 2 ≤ s.block.prevCar[i].toNat ∨
        i ≤ s.width.bytes - 2 ∧ 10 ≤ s.block.prevCar[i].toNat)

/-- 10_state R24, 41 R118 (derived there): from carried lengths within R24's bounds no add of step c wraps, and every new
carried length is the exact sum and at most 25. -/
def Obligations.CarriedLengthsNeverWrap : Prop :=
  ∀ (w : Width) (b : Block w) (cur : Lanes w), b.CarBounded → ∀ i, (h : i < w.bytes) →
    (carried cur b.prevCar)[i].toNat =
      (initLengths cur)[i].toNat + (carryOne b.prevCar (initLengths cur))[i].toNat +
        (carryTwo b.prevCar (runningSum b.prevCar (initLengths cur)))[i].toNat ∧
    (carried cur b.prevCar)[i].toNat ≤ 25

/-- 41 R133 (derived there): within R24's bounds signed and unsigned length compares give the same masks. -/
def Obligations.LengthComparesHaveOneSignedness : Prop :=
  ∀ (w : Width) (b : Block w) (cur : Lanes w), b.CarBounded →
    gts b.prevCar (sentinel w) = gtu b.prevCar (sentinel w) ∧
    gts (carried cur b.prevCar) (initLengths cur) = gtu (carried cur b.prevCar) (initLengths cur) ∧
    gts (initLengths cur) (broadcast w 0x00#8) = gtu (initLengths cur) (broadcast w 0x00#8)

/-- R82 to R89, R93: the window primitives and the sentinel, lane by lane. -/
def Obligations.WindowPrimitivesPerLane : Prop :=
  ∀ (w : Width) (u v p : Lanes w) (x : Nibbles w) (T : Vector Byte 16) (k : Byte),
    (∀ j, (reduceOr v).getLsbD j = true ↔ ∃ i, ∃ h : i < w.bytes, v[i].getLsbD j = true) ∧
    (anyLane v = true ↔ ∃ i, ∃ h : i < w.bytes, v[i] ≠ 0x00#8) ∧
    (ascii v = true ↔ ∀ i, (h : i < w.bytes) → v[i].toNat < 0x80) ∧
    ∀ i, (h : i < w.bytes) →
      (hiNibbles v)[i].toNat = v[i].toNat / 16 ∧ (lookup16 T x)[i] = T[x[i].toNat]'(x[i].isLt) ∧
      (shift1 p v)[i] = (if i = 0 then p[w.bytes - 1] else v[i - 1]) ∧
      (shift2 p v)[i] = (if i = 0 then p[w.bytes - 2] else if i = 1 then p[w.bytes - 1] else v[i - 2]) ∧
      (subSatK v k)[i].toNat = v[i].toNat - k.toNat ∧ (addLanes u v)[i].toNat = (u[i].toNat + v[i].toNat) % 256 ∧
      (eqLanes u v)[i] = (if u[i] = v[i] then 0xFF#8 else 0x00#8) ∧
      (gtu u v)[i] = (if v[i].toNat < u[i].toNat then 0xFF#8 else 0x00#8) ∧
      (gts u v)[i] = (if v[i].toInt < u[i].toInt then 0xFF#8 else 0x00#8) ∧
      (eqm u v)[i] = (if u[i] = v[i] then 0xFF#8 else 0x00#8) ∧
      (sentinel w)[i] = if i = w.bytes - 1 then 0x01#8 else 0x09#8

/-! ### Status, response and the step -/

/-- R231 (with R33's values): the state at power-on, at every width; nothing is pending (log entry 2) and the width of
`State.reset` is 16 (log entry 1). -/
def Obligations.PowerOnStateIsTheZeroState : Prop :=
  State.reset = State.resetAt .w16 ∧ ∀ w : Width,
    (State.resetAt w).ports = { err := false, respValid := false, resp := 0x00#8 } ∧ ∃ b : Block w,
      State.resetAt w = { width := w, block := b, out := { valid := false, value := 0x00#8 }, pending := [] } ∧
      (∀ i, (h : i < w.bytes) →
        b.prevRaw[i] = 0x00#8 ∧ b.prevHi[i] = 0x0#4 ∧ b.prevCar[i] = 0x00#8 ∧ b.hasError[i] = 0x00#8) ∧
      b.fast = false ∧ b.done = false ∧ b.ill = false

/-- R27: ERR, status bit 0 and `err_o` are one value: some lane of the accumulator is not zero. -/
def Obligations.ErrIsSomeNonzeroLane : Prop :=
  ∀ s : State, (s.ports.err = true ↔ ∃ i, ∃ h : i < s.width.bytes, s.block.hasError[i] ≠ 0x00#8) ∧
    s.block.status.getLsbD 0 = s.ports.err

/-- 20_memory R47: the response ports of a command and of a step: a response for QUERY only, then it is STATUS after the
step; 0x00 otherwise, reset steps among them. That they are held in `State.out` is the model's choice (log entry 3). -/
def Obligations.OnlyQueryResponds : Prop :=
  (∀ (i : Instr) (s t : State), exec i s = .next t →
    (t.ports.respValid = true ↔ i = .query) ∧
      t.ports.resp = if i = .query then t.block.status else 0x00#8) ∧
  ∀ s t : State, step s = .next t →
    (t.ports.respValid = true ↔ s.performs = some .query) ∧
      t.ports.resp = if s.performs = some .query then t.block.status else 0x00#8

/-- 30_encoding R60: the step performs exactly the command at the port, NOP when the host drives nothing; what is pending
behind it is left for later steps. The list `pending` and `withFetchWord` are the model's own form of the port (log entries
2, 4 and 12). -/
def Obligations.StepPerformsTheDecodedCommand : Prop :=
  ∀ s : State, (s.pending = [] → step s = exec .nop s) ∧
    (∀ (p : PortIn s.width) (rest : List (PortIn s.width)), s.pending = p :: rest → p.rst = false →
      step s = exec (decode p.cmd) { s with pending := rest }) ∧
    ∀ nbits word : Nat, step (s.withFetchWord nbits word) = exec (decode (Command.ofTableWord s.width nbits word)) s

/-- R230: a step with `rst = 1` ignores its command and leaves the state of R33, without a response. -/
def Obligations.ResetStepOverridesTheCommand : Prop :=
  ∀ (s : State) (p : PortIn s.width) (rest : List (PortIn s.width)), s.pending = p :: rest → p.rst = true →
    ∃ b : Block s.width,
      step s = .next { s with block := b, out := { valid := false, value := 0x00#8 }, pending := rest } ∧
        (∀ i, (h : i < s.width.bytes) →
          b.prevRaw[i] = 0x00#8 ∧ b.prevHi[i] = 0x0#4 ∧ b.prevCar[i] = 0x00#8 ∧ b.hasError[i] = 0x00#8) ∧
        b.fast = false ∧ b.done = false ∧ b.ill = false

/-- R22: who writes `previous`, and what. -/
def Obligations.OnlySlowFeedsWritePrevious : Prop :=
  ∀ s t : State, step s = .next t → s.performs ≠ none → s.performs ≠ some .init →
    (∀ cur : Lanes s.width, s.performs = some (.feed cur.toList) → s.block.done = false →
      (∃ c ∈ cur.toList, 0x80 ≤ c.toNat) →
        t.block.prevRaw.toList = cur.toList ∧
        t.block.prevHi.toList.map BitVec.toNat = cur.toList.map (fun c => c.toNat / 16) ∧
        t.block.prevCar.toList = (carried cur s.block.prevCar).toList) ∧
    ((¬ ∃ cur : Lanes s.width, s.performs = some (.feed cur.toList) ∧ s.block.done = false ∧
        ∃ c ∈ cur.toList, 0x80 ≤ c.toNat) →
      t.block.prevRaw.toList = s.block.prevRaw.toList ∧ t.block.prevHi.toList = s.block.prevHi.toList ∧
        t.block.prevCar.toList = s.block.prevCar.toList)

/-- R26: the accumulator is monotonic, only FEED and FINISH of an unfinished run, INIT and reset write it, and the last two
clear it. -/
def Obligations.AccumulatorIsMonotonic : Prop :=
  ∀ s t : State, step s = .next t →
    ((s.performs = none ∨ s.performs = some .init) → ∀ e ∈ t.block.hasError.toList, e = 0x00#8) ∧
    (s.performs ≠ none → s.performs ≠ some .init →
      (∀ k j, (s.block.hasError.toList.getD k 0x00#8).getLsbD j = true →
        (t.block.hasError.toList.getD k 0x00#8).getLsbD j = true) ∧
      ((s.block.done = true ∨ ∀ cur, s.performs ≠ some .finish ∧ s.performs ≠ some (.feed cur)) →
        t.block.hasError.toList = s.block.hasError.toList))

/-- R30: what `fast` is after a step. -/
def Obligations.FastTellsTheLastAcceptedFeedsPath : Prop :=
  ∀ s t : State, step s = .next t →
    ((s.performs = none ∨ s.performs = some .init) → t.block.fast = false) ∧
    (∀ cur, s.performs = some (.feed cur) → s.block.done = false →
      (t.block.fast = true ↔ ∀ c ∈ cur, c.toNat < 0x80)) ∧
    (∀ i, s.performs = some i → i ≠ .init → (s.block.done = true ∨ ∀ cur, i ≠ .feed cur) →
      t.block.fast = s.block.fast)

/-- R31: what `done` is after a step: set by FINISH, cleared by INIT and reset, else kept; and what FEED and FINISH do while
it is 1. -/
def Obligations.DoneIsSetByFinishAlone : Prop :=
  ∀ s t : State, step s = .next t →
    (t.block.done = true ↔
      ∃ i, s.performs = some i ∧ i ≠ .init ∧ (s.block.done = true ∨ i = .finish)) ∧
    (s.block.done = true → (s.performs = some .finish ∨ ∃ cur, s.performs = some (.feed cur)) →
      t = { s with block := { s.block with ill := true }, out := { valid := false, value := 0x00#8 },
                   pending := s.pending.tail })

/-- R203, R32: the three causes of `ill`, and that no cause of it changes `has_error`, so none changes ERR. -/
def Obligations.IllHasThreeCauses : Prop :=
  ∀ s t : State, step s = .next t →
    (t.block.ill = true ↔ ∃ i, s.performs = some i ∧ i ≠ .init ∧
      (s.block.ill = true ∨ i ∈ reservedOpcodes ∨ s.block.done = true ∧ (i = .finish ∨ ∃ cur, i = .feed cur))) ∧
    ((∃ i, s.performs = some i ∧
        (i ∈ reservedOpcodes ∨ s.block.done = true ∧ (i = .finish ∨ ∃ cur, i = .feed cur))) →
      t.block.hasError.toList = s.block.hasError.toList ∧ t.ports.err = s.ports.err)

/-- 60_exceptions R205: the only way to clear ERR is INIT or reset. -/
def Obligations.OnlyInitAndResetClearErr : Prop :=
  ∀ s t : State, step s = .next t → s.ports.err = true → t.ports.err = false →
    s.performs = none ∨ s.performs = some .init

/-- From R157, R160 and R165: after FINISH nothing but INIT and reset changes the verdict bits or any vector of the block. -/
def Obligations.AFinishedRunKeepsItsVerdict : Prop :=
  ∀ s t : State, step s = .next t → s.block.done = true → s.performs ≠ none → s.performs ≠ some .init →
    t.block.done = true ∧ t.ports.err = s.ports.err ∧ t.block.hasError.toList = s.block.hasError.toList ∧
      t.block.prevRaw.toList = s.block.prevRaw.toList ∧ t.block.prevHi.toList = s.block.prevHi.toList ∧
      t.block.prevCar.toList = s.block.prevCar.toList ∧ t.block.fast = s.block.fast

/-- 70_reset R240: what the response of a QUERY says of the run. With ILL = 1 ERR has no meaning as a verdict, whatever it is
(93 U9, log entry 11). -/
def Obligations.QueryResponseIsTheVerdict : Prop :=
  ∀ s t : State, exec .query s = .next t →
    (verdictOf t.out.value = .valid ↔ s.block.done = true ∧ s.ports.err = false ∧ s.block.ill = false) ∧
    (verdictOf t.out.value = .invalid ↔ s.block.done = true ∧ s.ports.err = true ∧ s.block.ill = false) ∧
    (verdictOf t.out.value = .noMeaning ↔ s.block.done = true ∧ s.block.ill = true) ∧
    (verdictOf t.out.value = .notEnded ↔ s.block.done = false)

/-- From 70_reset R233 and R240: INIT starts a run of its own. The results of a program are those of what stands before an
INIT and then those of what stands behind it, from the reset state (issued to a machine with nothing pending, log entry 2). -/
def Obligations.EveryInitStartsARunWithItsOwnResult : Prop :=
  ∀ (s : State) (before later : List Instr), s.pending = [] → (∀ i ∈ before ++ later, i.WellFormed s.width) →
    (s.issue (before ++ .init :: later)).results =
      (s.issue before).results ++ ((State.resetAt s.width).issue later).results

/-- From 70_reset R240: of the programs issued to a machine with nothing pending (log entry 2), a run has its result exactly
at the first QUERY with `done = 1`. `before` has given no result yet; what is issued behind the QUERY, further QUERYs among
them, gives none either until an INIT. -/
def Obligations.ARunEndsAtItsFirstQueryWithDone : Prop :=
  ∀ (s t : State) (before later : List Instr), s.pending = [] → (∀ i ∈ before ++ later, i.WellFormed s.width) →
    (∀ i ∈ later, i ≠ .init) → (s.issue before).results = [] →
    Host.Core.run Sys2Proof.core before.length (s.issue before) = .next t →
      (t.block.done = true → (s.issue (before ++ .query :: later)).results = [t.block.status]) ∧
      (t.block.done = false → (s.issue (before ++ [.query])).results = [])

/-! ### Encoding -/

/-- R62, R63: the opcode map at every width; format C ignores `cmd_data`, FEED reads all of it. -/
def Obligations.OpcodeMap : Prop :=
  ∀ (w : Width) (d : BitVec (8 * w.bytes)),
    decode (w := w) ⟨0x0#4, d⟩ = .nop ∧ decode (w := w) ⟨0x1#4, d⟩ = .init ∧
    (∃ cur : Lanes w, decode (w := w) ⟨0x2#4, d⟩ = .feed cur.toList ∧
      ∀ i, (h : i < w.bytes) → cur[i] = d.extractLsb' (8 * i) 8) ∧
    decode (w := w) ⟨0x3#4, d⟩ = .finish ∧ decode (w := w) ⟨0x4#4, d⟩ = .query ∧
    decode (w := w) ⟨0x5#4, d⟩ = .op5 ∧ decode (w := w) ⟨0x6#4, d⟩ = .op6 ∧ decode (w := w) ⟨0x7#4, d⟩ = .op7 ∧
    decode (w := w) ⟨0x8#4, d⟩ = .op8 ∧ decode (w := w) ⟨0x9#4, d⟩ = .op9 ∧ decode (w := w) ⟨0xA#4, d⟩ = .opA ∧
    decode (w := w) ⟨0xB#4, d⟩ = .opB ∧ decode (w := w) ⟨0xC#4, d⟩ = .opC ∧ decode (w := w) ⟨0xD#4, d⟩ = .opD ∧
    decode (w := w) ⟨0xE#4, d⟩ = .opE ∧ decode (w := w) ⟨0xF#4, d⟩ = .opF

/-- Two FEED words the spec writes out (30_encoding R68, derived there, and 95_test_vectors 3.3), and the opcodes 0x4 and 0xA of
30_encoding R62 as 4-bit table words. Reading such a short word as a command is the model's choice (log entry 4). -/
def Obligations.WrittenOutWordsDecode : Prop :=
  decode (w := .w16) ⟨0x2#4, 0x20202020202020202020202020A9C348#128⟩ =
      .feed [0x48, 0xC3, 0xA9, 0x20, 0x20, 0x20, 0x20, 0x20, 0x20, 0x20, 0x20, 0x20, 0x20, 0x20, 0x20, 0x20] ∧
    decode (w := .w16) ⟨0x2#4, 0x82E24141414141414141414141414141#128⟩ =
      .feed [0x41, 0x41, 0x41, 0x41, 0x41, 0x41, 0x41, 0x41, 0x41, 0x41, 0x41, 0x41, 0x41, 0x41, 0xE2, 0x82] ∧
    decodeTableWord 4 0x4 = some .query ∧ decodeTableWord 4 0xA = some .opA

/-- From 30_encoding R61, R62 and R63: decoding an encoded command gives it back, at every width and every operand. That the
encoder drives zeros in format C is the model's choice (log entry 5). -/
def Obligations.DecodeOfEncodeIsTheCommand : Prop :=
  ∀ (w : Width) (i : Instr), i.WellFormed w → decode (encode w i) = i

/-- From 30_encoding R61 to R64: encoding a decoded word gives its opcode back, and all of a FEED's word. In format C the
encoder's `cmd_data` is zero, the model's choice (log entry 5), so there only the opcode comes back. -/
def Obligations.EncodeOfDecodeKeepsTheOpcodeAndAFeedsWord : Prop :=
  ∀ (w : Width) (c : Command w), (decode c).WellFormed w ∧ (encode w (decode c)).op = c.op ∧
    (c.op = 0x2#4 → encode w (decode c) = c)

/-- From 30_encoding R66 (its blanks and letter case are the model's choice, log entry 14): the assembler
reads the textual form of every command as that command. -/
def Obligations.AssemblingTheTextGivesTheCommand : Prop :=
  ∀ (w : Width) (pad : Byte) (i : Instr), i.WellFormed w → assembleLine w pad (textOf i) = some [i]

/-! ### Invariants -/

/-- 10_state R23 and R24 (derived there): every step keeps them, from every state that has them. -/
def Obligations.EveryStepKeepsTheNibblesAndTheCarryBounds : Prop :=
  ∀ s t : State, s.block.Inv → step s = .next t → t.block.Inv

/-- The reset state has the invariant, at every width (R33). -/
def Obligations.ResetHasTheInvariant : Prop :=
  State.reset.block.Inv ∧ ∀ w : Width, (State.resetAt w).block.Inv

/-! ### Runs -/

/-- From R30, R111 and R112: windows of ASCII bytes alone are all on the fast path and are accepted, however many. -/
def Obligations.AsciiStreamsStayOnTheFastPathAndAreAccepted : Prop :=
  ∀ (w : Width) (windows : List (Lanes w)),
    (∀ v ∈ windows, ∀ i, (h : i < w.bytes) → v[i].toNat < 0x80) →
    (feedAll (Block.reset w) windows).err = false ∧ (tailCheck (feedAll (Block.reset w) windows)).err = false ∧
      (windows ≠ [] → (feedAll (Block.reset w) windows).fast = true)

/-- From R111 to R129, against the reference grammar (93 G1, general knowledge, log entry 16): the stream fed is accepted
exactly when it is well-formed UTF-8. -/
def Obligations.AcceptedStreamsAreExactlyWellFormedUtf8 : Prop :=
  ∀ (w : Width) (windows : List (Lanes w)),
    (tailCheck (feedAll (Block.reset w) windows)).err = false ↔ WellFormedUtf8 (streamOf windows)

/-- From 30_encoding R67, 70_reset R233 to R240 and the rules above, against the reference grammar (log entry 16): the
machine's run of VALIDATE on any byte string, issued as the port values of log entry 2, with any pad byte below 0x80 and from
any state, has one result, its last response, whose verdict is "valid" exactly when the string is well-formed UTF-8, and
"invalid" otherwise. -/
def Obligations.ValidateRunDecidesUtf8 : Prop :=
  ∀ (s : State) (pad : Byte) (bytes : List Byte), pad.toNat < 0x80 → s.pending = [] →
    ∃ t : State,
      Host.Core.run Sys2Proof.core (validate s.width pad bytes).length (s.issue (validate s.width pad bytes)) = .next t ∧
        t.pending = [] ∧ t.out.valid = true ∧ (s.issue (validate s.width pad bytes)).results = [t.out.value] ∧
        (verdictOf t.out.value = .valid ↔ WellFormedUtf8 bytes) ∧
        (verdictOf t.out.value = .invalid ↔ ¬ WellFormedUtf8 bytes)

/-- 41 R132 (derived there): overwriting `previous` on the fast path, the other reading of conflict C3, never changes a
verdict. -/
def Obligations.OverwritingPreviousOnTheFastPathKeepsVerdicts : Prop :=
  ∀ (w : Width) (windows : List (Lanes w)),
    (feedAllOverwriting (Block.reset w) windows).err = (feedAll (Block.reset w) windows).err ∧
      (tailCheck (feedAllOverwriting (Block.reset w) windows)).err = (tailCheck (feedAll (Block.reset w) windows)).err

/-! ### The host's side and the companions -/

/-- 20_memory R42: a window load gives the W bytes at base, base + 1, …, and is refused when one of them is unreadable. -/
def Obligations.WindowLoadReadsWBytesOrIsRefused : Prop :=
  ∀ (w : Width) (m : HostMemory) (base : Nat),
    (∀ bytes : List Byte, loadWindow w m base = .ok bytes ↔
      bytes.length = w.bytes ∧ ∀ i, i < w.bytes → m.byteAt (base + i) = bytes[i]?) ∧
    ((∃ i, i < w.bytes ∧ m.byteAt (base + i) = none) ↔ ∃ a, loadWindow w m base = .error (.unreadable a))

/-- From 30_encoding R67 and 70_reset R234: the windows of a stream are ceil(len / W) windows of W bytes that hold the
stream and then only pad bytes. -/
def Obligations.StreamWindowsHoldTheStreamAndPads : Prop :=
  ∀ (w : Width) (pad : Byte) (bytes : List Byte),
    (streamWindows w pad bytes).length = windowCount w bytes.length ∧
    (∀ v ∈ streamWindows w pad bytes, v.length = w.bytes) ∧
    (streamWindows w pad bytes).flatten =
      bytes ++ List.replicate (windowCount w bytes.length * w.bytes - bytes.length) pad ∧
    bytes.length ≤ windowCount w bytes.length * w.bytes ∧
    windowCount w bytes.length * w.bytes < bytes.length + w.bytes

/-- From 20_memory R42(c), 30_encoding R67 and 70_reset R234, R235: in every memory, whatever else it holds (the full-window
margin past the logical end among it), the run loaded from a buffer whose last window the host has filled with pad bytes is
the expansion of VALIDATE. -/
def Obligations.RunLoadedFromABufferIsValidate : Prop :=
  ∀ (w : Width) (m : HostMemory) (pad : Byte) (bytes : List Byte) (start : Nat),
    (∀ i, i < windowCount w bytes.length * w.bytes → m.byteAt (start + i) =
      (bytes ++ List.replicate (windowCount w bytes.length * w.bytes - bytes.length) pad)[i]?) →
    runOfBuffer w m start bytes.length = .ok (validate w pad bytes)

/-- 20_memory R53 (several blocks as a list: log entry 15): a step of one block leaves every other block as it was. -/
def Obligations.AStepOfOneBlockLeavesTheOthers : Prop :=
  ∀ (bank : Bank) (k : Nat) (s : State), bank[k]? = some s →
    ∃ (t : State) (after : Bank), step s = .next t ∧ stepOf bank k = .next after ∧ after.length = bank.length ∧
      after[k]? = some t ∧ ∀ j, j ≠ k → after[j]? = bank[j]?

/-- R181 to R186: the BitOps. At 0 `trailing_zero_count` is the free value of its draw, of which nothing is known. -/
def Obligations.BitOpsCountAndCheck : Prop :=
  (∀ draw : Nat, trailingZeroCount draw 0#64 = Config.freeTrailingZeroCount draw) ∧
  (∀ (draw : Nat) (x : BitVec 64), x ≠ 0#64 → ∃ i, i < 64 ∧ trailingZeroCount draw x = BitVec.ofNat 64 i ∧
    x.getLsbD i = true ∧ ∀ j, j < i → x.getLsbD j = false) ∧
  (∀ x : BitVec 64, x ≠ 0#64 → ∃ j, j < 64 ∧ leadingZeroCount x = BitVec.ofNat 64 (63 - j) ∧ x.getLsbD j = true ∧
    ∀ k, j < k → x.getLsbD k = false) ∧
  leadingZeroCount 0#64 = 64#64 ∧
  (∀ (x : BitVec 64) (i : Nat), (clearLowestSetBit x).getLsbD i = true ↔
    x.getLsbD i = true ∧ ∃ j, j < i ∧ x.getLsbD j = true) ∧
  (∀ x : BitVec 64, (populationCount x).toNat = ((List.range 64).filter fun i => x.getLsbD i).length) ∧
  (∀ a b : BitVec 64, checkedAdd a b = (a + b, decide (2 ^ 64 ≤ a.toNat + b.toNat))) ∧
  ∀ a b : BitVec 64, checkedMul a b = (a * b, decide (2 ^ 64 ≤ a.toNat * b.toNat))

/-- R187, R189, R190, R191: the window helpers, lane by lane. -/
def Obligations.WindowHelpersPerLane : Prop :=
  ∀ (w : Width) (v : Lanes w) (m : Byte) (i : Nat) (h : i < w.bytes),
    windowOfLanes w v.toList = some v ∧ (toBitmask v).getLsbD i = v[i].getLsbD 7 ∧
      ((equalsByte v m).getLsbD i = true ↔ v[i] = m) ∧
      ((lessOrEqualByte v m).getLsbD i = true ↔ v[i].toNat ≤ m.toNat) ∧ (bitwiseOrByte v m)[i] = v[i] ||| m
end

