-- ==== Sys2Proof/Laws/Assembler.lean ====
section
/-! SUPPORT. The assembler's characters and tokens. -/

namespace Sys2Proof.Machine

theorem hexDigit_digitChar (d : BitVec 4) : hexDigit (digitChar d) = some d := by revert d; decide

theorem digitChar_plain (d : BitVec 4) : isBlank (digitChar d) = false ∧ digitChar d ≠ ';' := by revert d; decide

/-- A byte's two digits are read back as the byte. -/
theorem hexByte_byteChars (b : Byte) : hexByte (byteChars b) = some b := by
  simp only [byteChars, hexByte, hexDigit_digitChar, Option.some.injEq]
  revert b; decide

theorem tokens_blank {c : Char} (h : isBlank c = true) (cs : List Char) : tokens (c :: cs) = tokens cs := by
  rw [tokens, if_pos h]

theorem tokens_char {c : Char} (h : isBlank c = false) (cs : List Char) :
    tokens (c :: cs) = glue c (goesOn cs) (tokens cs) := by
  rw [tokens, if_neg (by simp [h])]

theorem goesOn_bytes (cur : List Byte) : goesOn (cur.flatMap fun b => ' ' :: byteChars b) = false := by
  cases cur <;> rfl

/-- The tokens of a list of bytes written out. -/
theorem tokens_bytes (cur : List Byte) :
    tokens (cur.flatMap fun b => ' ' :: byteChars b) = cur.map byteChars := by
  induction cur with
  | nil => rfl
  | cons b bs ih =>
    have h1 := (digitChar_plain (b.extractLsb' 4 4)).1
    have h2 := (digitChar_plain (b.extractLsb' 0 4)).1
    have hg := goesOn_bytes bs
    simp only [List.flatMap_cons, byteChars, List.cons_append, List.nil_append, List.map_cons] at *
    rw [tokens_blank (by decide), tokens_char h1, tokens_char h2, hg, ih, goesOn, h2]
    rfl

theorem hexBytes_byteChars (cur : List Byte) : hexBytes (cur.map byteChars) = some cur := by
  induction cur with
  | nil => rfl
  | cons b bs ih => simp [hexBytes, hexByte_byteChars, ih]

theorem dropComment_bytes (l : List Char) (cur : List Byte) (hl : ∀ c ∈ l, c ≠ ';') :
    dropComment (l ++ cur.flatMap fun b => ' ' :: byteChars b) = l ++ cur.flatMap fun b => ' ' :: byteChars b := by
  rw [dropComment]
  apply List.takeWhile_eq_self_iff.mpr
  intro c hc
  simp only [List.mem_append, List.mem_flatMap, byteChars, List.mem_cons, List.not_mem_nil, or_false] at hc
  rcases hc with h | ⟨b, -, h | h | h⟩
  · simpa using hl c h
  · subst h; decide
  · subst h; simpa using (digitChar_plain _).2
  · subst h; simpa using (digitChar_plain _).2

end Sys2Proof.Machine
end

