-- ==== Sys2Proof/Laws/Lanes.lean ====
section
/-! SUPPORT. One lemma per lane-wise primitive: what it holds in lane i. -/

namespace Sys2Proof.Machine

/-! ### Bytes -/

@[simp] theorem subSat_toNat (a b : Byte) : (subSat a b).toNat = a.toNat - b.toNat := by
  have := a.isLt
  simp only [subSat, BitVec.toNat_ofNat]
  omega

@[simp] theorem addWrap_toNat (a b : Byte) : (addWrap a b).toNat = (a.toNat + b.toNat) % 256 := by
  simp [addWrap]

theorem addWrap_eq_add (a b : Byte) : addWrap a b = a + b := by
  apply BitVec.eq_of_toNat_eq
  simp

@[simp] theorem highNibble_toNat (b : Byte) : (highNibble b).toNat = b.toNat / 16 := by
  have := b.isLt
  simp only [highNibble, shiftRight, BitVec.toNat_setWidth, BitVec.toNat_ushiftRight, Nat.shiftRight_eq_div_pow]
  omega

theorem s8_eq_toInt (b : Byte) : s8 b = b.toInt := by
  simp only [s8, BitVec.toInt]
  split <;> split <;> omega

@[simp] theorem mask_true : mask true = 0xFF#8 := rfl
@[simp] theorem mask_false : mask false = 0x00#8 := rfl

theorem mask_ne_zero (c : Bool) : mask c ≠ 0x00#8 ↔ c = true := by cases c <;> decide

theorem mask_eq_zero (c : Bool) : mask c = 0x00#8 ↔ c = false := by cases c <;> decide

theorem mask_inj (c d : Bool) : mask c = mask d ↔ c = d := by cases c <;> cases d <;> decide

theorem mask_or (c d : Bool) : mask c ||| mask d = mask (c || d) := by cases c <;> cases d <;> decide

theorem mask_and (c d : Bool) : mask c &&& mask d = mask (c && d) := by cases c <;> cases d <;> decide

theorem msb_clear_iff (a : Byte) : a &&& 0x80#8 = 0x00#8 ↔ a.toNat < 0x80 := by
  revert a; decide

/-! ### Lanes -/

section Lanes
variable {α β γ : Type} {n : Nat} {w : Width} {i : Nat}

@[simp] theorem laneMap_getElem (f : α → β) (v : Vector α n) (h : i < n) : (laneMap f v)[i] = f v[i] := by
  simp [laneMap]

@[simp] theorem laneMapWith_getElem (f : α → β → γ) (v : Vector α n) (u : Vector β n) (h : i < n) :
    (laneMapWith f v u)[i] = f v[i] u[i] := by
  simp [laneMapWith]

theorem laneMap_eq_map (f : α → β) (v : Vector α n) : laneMap f v = v.map f := by
  ext i h; simp

theorem laneMapWith_eq_zipWith (f : α → β → γ) (v : Vector α n) (u : Vector β n) :
    laneMapWith f v u = Vector.zipWith f v u := by
  ext i h; simp

@[simp] theorem broadcast_getElem (b : Byte) (h : i < w.bytes) : (broadcast w b)[i] = b := by simp [broadcast]

@[simp] theorem hiNibbles_getElem (v : Lanes w) (h : i < w.bytes) : (hiNibbles v)[i] = highNibble v[i] := by
  simp [hiNibbles]

@[simp] theorem lookup16_getElem (T : Vector Byte 16) (x : Nibbles w) (h : i < w.bytes) :
    (lookup16 T x)[i] = entry T x[i] := by
  simp [lookup16]

@[simp] theorem subSatK_getElem (v : Lanes w) (k : Byte) (h : i < w.bytes) : (subSatK v k)[i] = subSat v[i] k := by
  simp [subSatK]

@[simp] theorem addLanes_getElem (u v : Lanes w) (h : i < w.bytes) : (addLanes u v)[i] = addWrap u[i] v[i] := by
  simp [addLanes]

@[simp] theorem orLanes_getElem (u v : Lanes w) (h : i < w.bytes) : (orLanes u v)[i] = u[i] ||| v[i] := by
  simp [orLanes]

@[simp] theorem andLanes_getElem (u v : Lanes w) (h : i < w.bytes) : (andLanes u v)[i] = u[i] &&& v[i] := by
  simp [andLanes]

@[simp] theorem eqLanes_getElem (u v : Lanes w) (h : i < w.bytes) :
    (eqLanes u v)[i] = mask (decide (u[i] = v[i])) := by
  simp [eqLanes]

@[simp] theorem gtu_getElem (u v : Lanes w) (h : i < w.bytes) : (gtu u v)[i] = mask (gtUnsigned u[i] v[i]) := by
  simp [gtu]

@[simp] theorem gts_getElem (u v : Lanes w) (h : i < w.bytes) : (gts u v)[i] = mask (gtSigned u[i] v[i]) := by
  simp [gts]

@[simp] theorem eqm_getElem (u v : Lanes w) (h : i < w.bytes) : (eqm u v)[i] = mask (decide (u[i] = v[i])) := by
  simp [eqm]

/-- R86: lane 0 of `shift1` is the last element of the previous vector, lane i the current one's lane i−1. -/
theorem shift1_getElem (p v : Vector α w.bytes) (h : i < w.bytes) :
    (shift1 p v)[i] = if i = 0 then p[w.bytes - 1] else v[i - 1] := by
  have := w.sixteen_le_bytes
  simp only [shift1, Vector.getElem_mk, List.getElem_toArray]
  rw [List.getElem_append]
  simp only [List.length_drop, Vector.length_toList]
  by_cases h0 : i = 0
  · subst h0
    simp [show 0 < w.bytes - (w.bytes - 1) by omega]
  · simp [h0, show w.bytes - (w.bytes - 1) = 1 by omega]

/-- R86: lanes 0 and 1 of `shift2` are the last two elements of the previous vector. -/
theorem shift2_getElem (p v : Vector α w.bytes) (h : i < w.bytes) :
    (shift2 p v)[i] = if i = 0 then p[w.bytes - 2] else if i = 1 then p[w.bytes - 1] else v[i - 2] := by
  have := w.sixteen_le_bytes
  simp only [shift2, Vector.getElem_mk, List.getElem_toArray]
  rw [List.getElem_append]
  simp only [List.length_drop, Vector.length_toList]
  by_cases h0 : i < 2
  · rw [dif_pos (show i < w.bytes - (w.bytes - 2) by omega)]
    obtain rfl | rfl : i = 0 ∨ i = 1 := by omega
    · simp
    · simp [show w.bytes - 2 + 1 = w.bytes - 1 by omega]
  · rw [dif_neg (show ¬ i < w.bytes - (w.bytes - 2) by omega)]
    simp [show i ≠ 0 by omega, show i ≠ 1 by omega, show w.bytes - (w.bytes - 2) = 2 by omega]

/-- R93: `S[i] = 9` for i ≤ W−2 and `S[W−1] = 1`. -/
theorem sentinel_getElem (h : i < w.bytes) : (sentinel w)[i] = if i = w.bytes - 1 then 1#8 else 9#8 := by
  simp only [sentinel, Vector.getElem_mk, List.getElem_toArray]
  rw [List.getElem_append]
  simp only [List.length_replicate]
  split <;> rename_i h1
  · simp [show i ≠ w.bytes - 1 by omega]
  · simp [show i = w.bytes - 1 by omega]

end Lanes

/-! ### Reductions -/

theorem foldl_or_eq_zero (l : List Byte) (a : Byte) :
    l.foldl (fun x y => x ||| y) a = 0x00#8 ↔ a = 0x00#8 ∧ ∀ x ∈ l, x = 0x00#8 := by
  induction l generalizing a with
  | nil => simp
  | cons x l ih => simp [ih, and_assoc]

theorem foldl_or_and_eq_zero (l : List Byte) (a m : Byte) :
    l.foldl (fun x y => x ||| y) a &&& m = 0x00#8 ↔ a &&& m = 0x00#8 ∧ ∀ x ∈ l, x &&& m = 0x00#8 := by
  induction l generalizing a with
  | nil => simp
  | cons x l ih =>
    have : (a ||| x) &&& m = (a &&& m) ||| (x &&& m) := by
      apply BitVec.eq_of_getLsbD_eq
      intro i _
      simp [Bool.and_or_distrib_right]
    simp [ih, this, and_assoc]

theorem reduceOr_eq_zero {w : Width} (v : Lanes w) :
    reduceOr v = 0x00#8 ↔ ∀ i, (h : i < w.bytes) → v[i] = 0x00#8 := by
  simp only [reduceOr, foldl_or_eq_zero, true_and, List.forall_mem_iff_forall_getElem]
  simp

/-- R83: `any` is true iff some lane is not zero. -/
theorem anyLane_eq_true {w : Width} (v : Lanes w) :
    anyLane v = true ↔ ∃ i, ∃ h : i < w.bytes, v[i] ≠ 0x00#8 := by
  simp [anyLane, reduceOr_eq_zero]

theorem anyLane_eq_false {w : Width} (v : Lanes w) :
    anyLane v = false ↔ ∀ i, (h : i < w.bytes) → v[i] = 0x00#8 := by
  simp [anyLane, reduceOr_eq_zero]

/-- R26: what is ORed in is what is added to the accumulator, nothing is cleared. -/
theorem anyLane_orLanes {w : Width} (u e : Lanes w) : anyLane (orLanes u e) = (anyLane u || anyLane e) := by
  rw [Bool.eq_iff_iff, Bool.or_eq_true]
  simp only [anyLane_eq_true, orLanes_getElem, ne_eq, BitVec.or_eq_zero_iff]
  constructor
  · rintro ⟨i, hi, h⟩
    by_cases hu : u[i] = 0x00#8
    · exact .inr ⟨i, hi, fun he => h ⟨hu, he⟩⟩
    · exact .inl ⟨i, hi, hu⟩
  · rintro (⟨i, hi, h⟩ | ⟨i, hi, h⟩)
    · exact ⟨i, hi, fun hc => h hc.1⟩
    · exact ⟨i, hi, fun hc => h hc.2⟩

/-- R83: `ascii` is true iff every lane is below 0x80. -/
theorem ascii_eq_true {w : Width} (v : Lanes w) :
    ascii v = true ↔ ∀ i, (h : i < w.bytes) → v[i].toNat < 0x80 := by
  rw [ascii, decide_eq_true_eq, reduceOr, foldl_or_and_eq_zero, List.forall_mem_iff_forall_getElem]
  simp [msb_clear_iff]

/-- The same, over the window as a list. -/
theorem ascii_iff_forall_mem {w : Width} (v : Lanes w) : ascii v = true ↔ ∀ c ∈ v.toList, c.toNat < 0x80 := by
  rw [ascii_eq_true, List.forall_mem_iff_forall_getElem]
  simp

end Sys2Proof.Machine
end

