-- ==== Sys2Proof/Laws/State.lean ====
section
/-! SUPPORT. One lemma per field per update of the block and of the machine, each true by rfl. -/

namespace Sys2Proof.Machine

section Block
variable {w : Width} (b : Block w) (e cur : Lanes w)

@[simp] theorem accumulate_prevRaw : (b.accumulate e).prevRaw = b.prevRaw := rfl
@[simp] theorem accumulate_prevHi : (b.accumulate e).prevHi = b.prevHi := rfl
@[simp] theorem accumulate_prevCar : (b.accumulate e).prevCar = b.prevCar := rfl
@[simp] theorem accumulate_hasError : (b.accumulate e).hasError = orLanes b.hasError e := rfl
@[simp] theorem accumulate_fast : (b.accumulate e).fast = b.fast := rfl
@[simp] theorem accumulate_done : (b.accumulate e).done = b.done := rfl
@[simp] theorem accumulate_ill : (b.accumulate e).ill = b.ill := rfl

@[simp] theorem violate_prevRaw : b.violate.prevRaw = b.prevRaw := rfl
@[simp] theorem violate_prevHi : b.violate.prevHi = b.prevHi := rfl
@[simp] theorem violate_prevCar : b.violate.prevCar = b.prevCar := rfl
@[simp] theorem violate_hasError : b.violate.hasError = b.hasError := rfl
@[simp] theorem violate_fast : b.violate.fast = b.fast := rfl
@[simp] theorem violate_done : b.violate.done = b.done := rfl
@[simp] theorem violate_ill : b.violate.ill = true := rfl

@[simp] theorem fastWindow_prevRaw : (fastWindow b).prevRaw = b.prevRaw := rfl
@[simp] theorem fastWindow_prevHi : (fastWindow b).prevHi = b.prevHi := rfl
@[simp] theorem fastWindow_prevCar : (fastWindow b).prevCar = b.prevCar := rfl
@[simp] theorem fastWindow_hasError : (fastWindow b).hasError = orLanes b.hasError (errAscii b.prevCar) := rfl
@[simp] theorem fastWindow_fast : (fastWindow b).fast = true := rfl
@[simp] theorem fastWindow_done : (fastWindow b).done = b.done := rfl
@[simp] theorem fastWindow_ill : (fastWindow b).ill = b.ill := rfl

@[simp] theorem slowWindow_prevRaw : (slowWindow b cur).prevRaw = cur := rfl
@[simp] theorem slowWindow_prevHi : (slowWindow b cur).prevHi = hiNibbles cur := rfl
@[simp] theorem slowWindow_prevCar : (slowWindow b cur).prevCar = carried cur b.prevCar := rfl
@[simp] theorem slowWindow_hasError : (slowWindow b cur).hasError = orLanes b.hasError (slowError b cur) := rfl
@[simp] theorem slowWindow_fast : (slowWindow b cur).fast = false := rfl
@[simp] theorem slowWindow_done : (slowWindow b cur).done = b.done := rfl
@[simp] theorem slowWindow_ill : (slowWindow b cur).ill = b.ill := rfl

@[simp] theorem tailCheck_prevRaw : (tailCheck b).prevRaw = b.prevRaw := rfl
@[simp] theorem tailCheck_prevHi : (tailCheck b).prevHi = b.prevHi := rfl
@[simp] theorem tailCheck_prevCar : (tailCheck b).prevCar = b.prevCar := rfl
@[simp] theorem tailCheck_hasError : (tailCheck b).hasError = orLanes b.hasError (errTail b.prevCar) := rfl
@[simp] theorem tailCheck_fast : (tailCheck b).fast = b.fast := rfl
@[simp] theorem tailCheck_done : (tailCheck b).done = true := rfl
@[simp] theorem tailCheck_ill : (tailCheck b).ill = b.ill := rfl

@[simp] theorem block_reset_fast : (Block.reset w).fast = false := rfl
@[simp] theorem block_reset_done : (Block.reset w).done = false := rfl
@[simp] theorem block_reset_ill : (Block.reset w).ill = false := rfl

end Block

section State
variable (s : State)

@[simp] theorem complete_width (b : Block s.width) (r : Response) : (s.complete b r).width = s.width := rfl
@[simp] theorem complete_block (b : Block s.width) (r : Response) : (s.complete b r).block = b := rfl
@[simp] theorem complete_out (b : Block s.width) (r : Response) : (s.complete b r).out = r := rfl
@[simp] theorem complete_pending (b : Block s.width) (r : Response) : (s.complete b r).pending = s.pending := rfl

@[simp] theorem applyReset_width : s.applyReset.width = s.width := rfl
@[simp] theorem applyReset_block : s.applyReset.block = Block.reset s.width := rfl
@[simp] theorem applyReset_out : s.applyReset.out = Response.none := rfl
@[simp] theorem applyReset_pending : s.applyReset.pending = s.pending := rfl

@[simp] theorem reservedOpcode_width : s.reservedOpcode.width = s.width := rfl
@[simp] theorem reservedOpcode_block : s.reservedOpcode.block = s.block.violate := rfl
@[simp] theorem reservedOpcode_out : s.reservedOpcode.out = Response.none := rfl
@[simp] theorem reservedOpcode_pending : s.reservedOpcode.pending = s.pending := rfl

@[simp] theorem issue_width (program : List Instr) : (s.issue program).width = s.width := rfl
@[simp] theorem issue_block (program : List Instr) : (s.issue program).block = s.block := rfl
@[simp] theorem issue_out (program : List Instr) : (s.issue program).out = s.out := rfl
@[simp] theorem issue_pending (program : List Instr) :
    (s.issue program).pending = s.pending ++ program.map (portOf s.width) := rfl

@[simp] theorem withFetchWord_width (nbits word : Nat) : (s.withFetchWord nbits word).width = s.width := rfl
@[simp] theorem withFetchWord_block (nbits word : Nat) : (s.withFetchWord nbits word).block = s.block := rfl
@[simp] theorem withFetchWord_out (nbits word : Nat) : (s.withFetchWord nbits word).out = s.out := rfl
@[simp] theorem withFetchWord_pending (nbits word : Nat) :
    (s.withFetchWord nbits word).pending =
      { rst := false, cmd := Command.ofTableWord s.width nbits word } :: s.pending := rfl

@[simp] theorem response_none_valid : Response.none.valid = false := rfl
@[simp] theorem response_none_value : Response.none.value = 0x00#8 := rfl
@[simp] theorem response_some_valid (v : Byte) : (Response.some v).valid = true := rfl
@[simp] theorem response_some_value (v : Byte) : (Response.some v).value = v := rfl

end State

end Sys2Proof.Machine
end

