-- ==== Sys2Proof/Laws/Exec.lean ====
section
/-! SUPPORT. What a command and a step can do, said once. -/

namespace Sys2Proof.Machine

/-- The window of a list of exactly W bytes. -/
def windowOf {w : Width} (cur : List Byte) (h : cur.length = w.bytes) : Lanes w := ⟨cur.toArray, by simpa using h⟩

@[simp] theorem windowOf_toList {w : Width} (cur : List Byte) (h : cur.length = w.bytes) :
    (windowOf cur h).toList = cur := by simp [windowOf]

@[simp] theorem windowOf_getElem {w : Width} (cur : List Byte) (h : cur.length = w.bytes) (i : Nat)
    (hi : i < w.bytes) : (windowOf cur h)[i] = cur[i]'(h ▸ hi) := by simp [windowOf]

@[simp] theorem windowOf_vector {w : Width} (v : Lanes w) (h : v.toList.length = w.bytes) :
    windowOf v.toList h = v := by ext i hi; simp

/-! ### The meanings -/

theorem execFeed_window (s : State) (cur : Lanes s.width) :
    execFeed cur.toList s = .next (s.complete (feedWindow s.block cur) Response.none) := by
  have h : cur.toList.length = s.width.bytes := by simp
  rw [execFeed, dif_pos h]
  congr

theorem execFeed_refused (s : State) (cur : List Byte) (h : cur.length ≠ s.width.bytes) :
    execFeed cur s = .refused .notOneWindow := by
  rw [execFeed, dif_neg h]

theorem feedWindow_done {w : Width} (b : Block w) (cur : Lanes w) (h : b.done = true) :
    feedWindow b cur = b.violate := by simp [feedWindow, h]

theorem feedWindow_open {w : Width} (b : Block w) (cur : Lanes w) (h : b.done = false) :
    feedWindow b cur = windowStep b cur := by simp [feedWindow, h]

theorem finishRun_done {w : Width} (b : Block w) (h : b.done = true) : finishRun b = b.violate := by
  simp [finishRun, h]

theorem finishRun_open {w : Width} (b : Block w) (h : b.done = false) : finishRun b = tailCheck b := by
  simp [finishRun, h]

theorem windowStep_fast {w : Width} (b : Block w) (cur : Lanes w) (h : ascii cur = true) :
    windowStep b cur = fastWindow b := by simp [windowStep, h]

theorem windowStep_slow {w : Width} (b : Block w) (cur : Lanes w) (h : ascii cur = false) :
    windowStep b cur = slowWindow b cur := by simp [windowStep, h]

/-- The block after a command, where it completes. -/
def blockAfter {w : Width} (i : Instr) (b : Block w) : Block w :=
  match i with
  | .nop | .query => b
  | .init => Block.reset w
  | .feed cur => if h : cur.length = w.bytes then feedWindow b (windowOf cur h) else b
  | .finish => finishRun b
  | .op5 | .op6 | .op7 | .op8 | .op9 | .opA | .opB | .opC | .opD | .opE | .opF => b.violate

/-- The response ports after a command. -/
def responseOf {w : Width} (i : Instr) (b : Block w) : Response :=
  match i with
  | .query => Response.some b.status
  | .nop | .init | .feed _ | .finish => Response.none
  | .op5 | .op6 | .op7 | .op8 | .op9 | .opA | .opB | .opC | .opD | .opE | .opF => Response.none

/-- Every command that is a command at the machine's width completes; this is all it can do. -/
theorem exec_wellFormed (i : Instr) (s : State) (h : i.WellFormed s.width) :
    exec i s = .next (s.complete (blockAfter i s.block) (responseOf i s.block)) := by
  cases i with
  | feed cur =>
    have hl : cur.length = s.width.bytes := by simpa [Instr.WellFormed, Instr.wellFormed] using h
    simp only [exec, execFeed, blockAfter, responseOf, dif_pos hl]
    rfl
  | _ => rfl

/-- A term that is no command at the machine's width is refused. -/
theorem exec_illFormed (i : Instr) (s : State) (h : ¬ i.WellFormed s.width) :
    exec i s = .refused .notOneWindow := by
  cases i with
  | feed cur =>
    exact execFeed_refused s cur (by simpa [Instr.WellFormed, Instr.wellFormed] using h)
  | _ => exact absurd rfl h

/-- The inversion of `exec`: where it answers a next state, the term was a command. -/
theorem exec_next {i : Instr} {s t : State} (h : exec i s = .next t) :
    i.WellFormed s.width ∧ t = s.complete (blockAfter i s.block) (responseOf i s.block) := by
  by_cases hw : i.WellFormed s.width
  · rw [exec_wellFormed i s hw] at h
    exact ⟨hw, (Host.Outcome.next.inj h).symm⟩
  · rw [exec_illFormed i s hw] at h
    cases h

/-- Everything a command can do to the block, with the condition under which it does it. -/
theorem blockAfter_cases {w : Width} {i : Instr} {b : Block w} (h : i.WellFormed w) :
    (blockAfter i b = b ∧ (i = .nop ∨ i = .query)) ∨
    (blockAfter i b = Block.reset w ∧ i = .init) ∨
    (∃ cur : Lanes w, blockAfter i b = fastWindow b ∧ i = .feed cur.toList ∧ b.done = false ∧ ascii cur = true) ∨
    (∃ cur : Lanes w, blockAfter i b = slowWindow b cur ∧ i = .feed cur.toList ∧ b.done = false ∧ ascii cur = false) ∨
    (blockAfter i b = tailCheck b ∧ i = .finish ∧ b.done = false) ∨
    (blockAfter i b = b.violate ∧
      (i ∈ reservedOpcodes ∨ b.done = true ∧ (i = .finish ∨ ∃ cur : Lanes w, i = .feed cur.toList))) := by
  cases i with
  | nop => exact .inl ⟨rfl, .inl rfl⟩
  | query => exact .inl ⟨rfl, .inr rfl⟩
  | init => exact .inr (.inl ⟨rfl, rfl⟩)
  | feed cur =>
    have hl : cur.length = w.bytes := by simpa [Instr.WellFormed, Instr.wellFormed] using h
    have hb : blockAfter (.feed cur) b = feedWindow b (windowOf cur hl) := by simp only [blockAfter, dif_pos hl]
    have hi : Instr.feed cur = .feed (windowOf cur hl : Lanes w).toList := by rw [windowOf_toList]
    cases hd : b.done with
    | true =>
      rw [feedWindow_done _ _ hd] at hb
      exact .inr (.inr (.inr (.inr (.inr ⟨hb, .inr ⟨rfl, .inr ⟨_, hi⟩⟩⟩))))
    | false =>
      rw [feedWindow_open _ _ hd] at hb
      cases ha : ascii (windowOf cur hl : Lanes w) with
      | true => exact .inr (.inr (.inl ⟨_, by rw [hb, windowStep_fast _ _ ha], hi, rfl, ha⟩))
      | false => exact .inr (.inr (.inr (.inl ⟨_, by rw [hb, windowStep_slow _ _ ha], hi, rfl, ha⟩)))
  | finish =>
    have hb : blockAfter .finish b = finishRun b := rfl
    cases hd : b.done with
    | true =>
      rw [finishRun_done _ hd] at hb
      exact .inr (.inr (.inr (.inr (.inr ⟨hb, .inr ⟨rfl, .inl rfl⟩⟩))))
    | false =>
      rw [finishRun_open _ hd] at hb
      exact .inr (.inr (.inr (.inr (.inl ⟨hb, rfl, rfl⟩))))
  | _ => exact .inr (.inr (.inr (.inr (.inr ⟨rfl, .inl (by decide)⟩))))

/-! ### The decoder's terms are commands -/

theorem decode_wellFormed {w : Width} (c : Command w) : (decode c).WellFormed w := by
  unfold decode
  split <;> simp [Instr.WellFormed, Instr.wellFormed]

/-! ### The step -/

theorem step_idle (s : State) (h : s.pending = []) : step s = exec .nop s := by simp [step, h]

theorem step_reset (s : State) (p : PortIn s.width) (rest : List (PortIn s.width)) (h : s.pending = p :: rest)
    (hr : p.rst = true) : step s = .next (State.applyReset { s with pending := rest }) := by
  simp [step, h, hr]

theorem step_command (s : State) (p : PortIn s.width) (rest : List (PortIn s.width)) (h : s.pending = p :: rest)
    (hr : p.rst = false) : step s = exec (decode p.cmd) { s with pending := rest } := by
  simp [step, h, hr]

/-- The inversion of `step`: it always answers a next state, with the width kept, and the block is the reset block or the
block after the one command the step performs. -/
theorem step_cases (s : State) :
    ∃ (b : Block s.width) (r : Response) (rest : List (PortIn s.width)),
      step s = .next { s with block := b, out := r, pending := rest } ∧
        ((s.performs = none ∧ b = Block.reset s.width ∧ r = Response.none) ∨
          ∃ i : Instr, s.performs = some i ∧ i.WellFormed s.width ∧ b = blockAfter i s.block ∧
            r = responseOf i s.block) := by
  cases hp : s.pending with
  | nil =>
    refine ⟨s.block, Response.none, [], ?_, .inr ⟨.nop, by simp [State.performs, hp], rfl, rfl, rfl⟩⟩
    rw [step_idle s hp, ← hp]
    rfl
  | cons p rest =>
    cases hr : p.rst with
    | true =>
      refine ⟨Block.reset s.width, Response.none, rest, ?_, .inl ⟨by simp [State.performs, hp, hr], rfl, rfl⟩⟩
      rw [step_reset s p rest hp hr]
    | false =>
      have hw := decode_wellFormed p.cmd
      refine ⟨blockAfter (decode p.cmd) s.block, responseOf (decode p.cmd) s.block, rest, ?_,
        .inr ⟨decode p.cmd, by simp [State.performs, hp, hr], hw, rfl, rfl⟩⟩
      rw [step_command s p rest hp hr]
      exact exec_wellFormed (decode p.cmd) { s with pending := rest } hw

end Sys2Proof.Machine
end

