-- ==== Sys2Proof/Laws/Utf8.lean ====
section
/-! SUPPORT. A byte-at-a-time decoder of the reference grammar, and one lane of the checks against one step of it. -/

namespace Sys2Proof.Machine

/-! ### The decoder -/

/-- What may follow the bytes read so far. `afterC0` is entered by 0xC0 and 0xC1 and left by nothing: the block flags such a
leader one lane later. -/
inductive Utf8State where
  | start
  | one
  | two
  | three
  | afterC0
  | afterE0
  | afterED
  | afterF0
  | afterF4
  deriving DecidableEq, Repr

/-- How many continuation bytes are still to come. -/
def Utf8State.rem : Utf8State → Nat
  | .start => 0
  | .one | .afterC0 => 1
  | .two | .afterE0 | .afterED => 2
  | .three | .afterF0 | .afterF4 => 3

/-- A byte where a character begins. -/
def utf8Lead (c : Nat) : Option Utf8State :=
  if c < 0x80 then some .start
  else if c < 0xC0 then none
  else if c < 0xC2 then some .afterC0
  else if c < 0xE0 then some .one
  else if c = 0xE0 then some .afterE0
  else if c = 0xED then some .afterED
  else if c < 0xF0 then some .two
  else if c = 0xF0 then some .afterF0
  else if c < 0xF4 then some .three
  else if c = 0xF4 then some .afterF4
  else none

/-- A byte inside a character, in its range. -/
def utf8Inside (lo hi c : Nat) (q : Utf8State) : Option Utf8State := if lo ≤ c ∧ c ≤ hi then some q else none

/-- The decoder's step. -/
def Utf8State.next : Utf8State → Nat → Option Utf8State
  | .start, c => utf8Lead c
  | .one, c => utf8Inside 0x80 0xBF c .start
  | .two, c => utf8Inside 0x80 0xBF c .one
  | .three, c => utf8Inside 0x80 0xBF c .two
  | .afterC0, _ => none
  | .afterE0, c => utf8Inside 0xA0 0xBF c .one
  | .afterED, c => utf8Inside 0x80 0x9F c .one
  | .afterF0, c => utf8Inside 0x90 0xBF c .two
  | .afterF4, c => utf8Inside 0x80 0x8F c .two

/-- The decoder on a byte string. -/
def utf8Run : Utf8State → List Byte → Option Utf8State
  | p, [] => some p
  | p, c :: cs =>
    match p.next c.toNat with
    | none => none
    | some q => utf8Run q cs

/-! ### One lane, in numbers -/

/-- The byte class of R115. -/
def lenOf (c : Nat) : Nat := if c < 0x80 then 1 else if c < 0xC0 then 0 else if c < 0xE0 then 2 else if c < 0xF0 then 3 else 4

/-- Some check fires in a lane that holds `c` after the byte `a`, with carried length `car`. -/
def LaneBad (a c car : Nat) : Prop :=
  (0 < lenOf c ∧ lenOf c < car) ∨ (lenOf c = 0 ∧ car = 0) ∨ 0xF4 < c ∨ (a = 0xED ∧ 0x9F < c) ∨ (a = 0xF4 ∧ 0x8F < c) ∨
    ((a = 0xC0 ∨ a = 0xC1) ∧ c ≠ 0x7F) ∨ (a = 0xE0 ∧ 0x80 ≤ c ∧ c ≤ 0x9F) ∨ (a = 0xF0 ∧ 0x80 ≤ c ∧ c ≤ 0x8F)

/-- What the byte before a lane tells of the decoder's state. -/
def LeaderAgrees : Utf8State → Nat → Prop
  | .start, a => a ≤ 0xBF
  | .one, a | .two, a | .three, a => a ≠ 0xC0 ∧ a ≠ 0xC1 ∧ a ≠ 0xE0 ∧ a ≠ 0xED ∧ a ≠ 0xF0 ∧ a ≠ 0xF4
  | .afterC0, a => a = 0xC0 ∨ a = 0xC1
  | .afterE0, a => a = 0xE0
  | .afterED, a => a = 0xED
  | .afterF0, a => a = 0xF0
  | .afterF4, a => a = 0xF4

/-- What the carries into a lane tell of it: `x`, `y` the one- and two-position carries of this lane, `z` the two-position
carry of the next. -/
def CarriesAgree (rem x y z : Nat) : Prop :=
  x ≤ 3 ∧ y ≤ 2 ∧ z ≤ 2 ∧
    (rem = 0 ∧ x = 0 ∧ y = 0 ∧ z = 0 ∨ rem = 1 ∧ 0 < x + y ∧ z = 0 ∧ x ≤ 2 ∨ rem = 2 ∧ 0 < x + y ∧ 0 < z ∧ x ≤ 2 ∨
      rem = 3 ∧ x = 3 ∧ 0 < z)

/-- The context of a lane agrees with the decoder's state before it. -/
def LaneAgrees (p : Utf8State) (a x y z : Nat) : Prop := LeaderAgrees p a ∧ CarriesAgree p.rem x y z

/-- The carries are exact: no continuation byte of a character begun in an earlier window stands in between. -/
def CarriesExact (rem x y z : Nat) : Prop := x + y = rem ∧ z = rem - 1

theorem lenOf_cases (c : Nat) :
    c < 0x80 ∧ lenOf c = 1 ∨ (0x80 ≤ c ∧ c < 0xC0) ∧ lenOf c = 0 ∨ (0xC0 ≤ c ∧ c < 0xE0) ∧ lenOf c = 2 ∨
      (0xE0 ≤ c ∧ c < 0xF0) ∧ lenOf c = 3 ∨ 0xF0 ≤ c ∧ lenOf c = 4 := by
  unfold lenOf
  split_ifs <;> omega

theorem utf8Inside_isSome (lo hi c : Nat) (q : Utf8State) :
    (utf8Inside lo hi c q).isSome = true ↔ lo ≤ c ∧ c ≤ hi := by
  unfold utf8Inside
  split_ifs with h <;> simp [h]

theorem utf8Lead_isSome (c : Nat) : (utf8Lead c).isSome = true ↔ c < 0x80 ∨ 0xC0 ≤ c ∧ c ≤ 0xF4 := by
  unfold utf8Lead
  split_ifs <;> simp <;> omega

/-- The checks of a lane are silent exactly when the decoder has a next state. -/
theorem lane_clean_iff {p : Utf8State} {a x y z c : Nat} (h : LaneAgrees p a x y z) :
    ¬ LaneBad a c (lenOf c + x + y) ↔ (p.next c).isSome = true := by
  obtain ⟨hl, hx⟩ := h
  cases p <;>
    simp only [LeaderAgrees, CarriesAgree, Utf8State.rem, LaneBad, Utf8State.next, utf8Lead_isSome,
      utf8Inside_isSome, Option.isSome_none] at hl hx ⊢ <;>
    rcases lenOf_cases c with ⟨hc, hL⟩ | ⟨hc, hL⟩ | ⟨hc, hL⟩ | ⟨hc, hL⟩ | ⟨hc, hL⟩ <;>
    simp [hL] <;> omega

theorem utf8Inside_eq_some {lo hi c : Nat} {q r : Utf8State} :
    utf8Inside lo hi c q = some r ↔ (lo ≤ c ∧ c ≤ hi) ∧ q = r := by
  unfold utf8Inside
  split_ifs with h <;> simp [h]

theorem utf8Lead_eq_some {c : Nat} {q : Utf8State} (h : utf8Lead c = some q) :
    lenOf c = q.rem + 1 ∧ LeaderAgrees q c := by
  unfold utf8Lead at h
  split_ifs at h <;> simp only [Option.some.injEq] at h <;> subst h <;>
    simp only [LeaderAgrees, Utf8State.rem] <;> unfold lenOf <;> split_ifs <;> omega

theorem lenOf_inside {c : Nat} (h : 0x80 ≤ c) (h' : c ≤ 0xBF) : lenOf c = 0 := by
  unfold lenOf
  split_ifs <;> omega

/-- A step of the decoder begins a character or counts one continuation byte. -/
theorem next_rem {p q : Utf8State} {c : Nat} (h : p.next c = some q) :
    (p = .start ∧ lenOf c = q.rem + 1 ∨ lenOf c = 0 ∧ p.rem = q.rem + 1) ∧ LeaderAgrees q c := by
  cases p <;> simp only [Utf8State.next, utf8Inside_eq_some, reduceCtorEq] at h
  case start => exact ⟨.inl ⟨rfl, (utf8Lead_eq_some h).1⟩, (utf8Lead_eq_some h).2⟩
  all_goals
    obtain ⟨hc, rfl⟩ := h
    exact ⟨.inr ⟨lenOf_inside (by omega) (by omega), rfl⟩, by simp only [LeaderAgrees]; omega⟩

theorem rem_le_three (p : Utf8State) : p.rem ≤ 3 := by cases p <;> decide

theorem lane_next {p q : Utf8State} {a x y z c : Nat} (h : LaneAgrees p a x y z) (hq : p.next c = some q) :
    LaneAgrees q c (lenOf c - 1) z (lenOf c + x - 2) := by
  obtain ⟨hr, hl⟩ := next_rem hq
  have h3 := rem_le_three q
  refine ⟨hl, ?_⟩
  obtain ⟨-, hx⟩ := h
  unfold CarriesAgree at *
  rcases hr with ⟨rfl, hc⟩ | ⟨hc, hr⟩
  · simp only [Utf8State.rem] at hx
    omega
  · omega

/-- Exactness is kept, and then the lane's carried length is one more than what is still to come (R117, conflict C8). -/
theorem lane_exact {p q : Utf8State} {a x y z c : Nat} (h : LaneAgrees p a x y z) (hq : p.next c = some q)
    (he : CarriesExact p.rem x y z) :
    CarriesExact q.rem (lenOf c - 1) z (lenOf c + x - 2) ∧ lenOf c + x + y = q.rem + 1 := by
  obtain ⟨hr, -⟩ := next_rem hq
  have h3 := rem_le_three q
  obtain ⟨-, hx⟩ := h
  unfold CarriesAgree CarriesExact at *
  rcases hr with ⟨rfl, hc⟩ | ⟨hc, hr⟩
  · simp only [Utf8State.rem] at hx
    omega
  · omega

/-! ### The decoder's runs -/

theorem utf8Run_append (p : Utf8State) (l m : List Byte) :
    utf8Run p (l ++ m) = (utf8Run p l).bind fun q => utf8Run q m := by
  induction l generalizing p with
  | nil => rfl
  | cons c cs ih =>
    simp only [List.cons_append, utf8Run]
    cases p.next c.toNat with
    | none => rfl
    | some q => exact ih q

theorem utf8Run_single (p : Utf8State) (c : Byte) : utf8Run p [c] = p.next c.toNat := by
  simp only [utf8Run]
  cases p.next c.toNat <;> rfl

end Sys2Proof.Machine
end

