-- ==== Sys2Proof/Laws/Datapath.lean ====
section
/-! SUPPORT. The datapath's lanes in numbers: the byte classes, the checks of one lane, the carried lengths as a recurrence along the window. -/

namespace Sys2Proof.Machine

/-! ### Bytes -/

theorem entry_lenTable (b : Byte) : (entry lenTable (highNibble b)).toNat = lenOf b.toNat := by
  revert b; decide

theorem gtSigned_imin (a : Byte) :
    gtSigned (entry iminTable (highNibble a)) a = true ↔
      a.toNat = 0xC0 ∨ a.toNat = 0xC1 ∨ a.toNat = 0xE0 ∨ a.toNat = 0xF0 := by
  revert a; decide

theorem gtSigned_7F (c : Byte) : gtSigned 0x7F#8 c = true ↔ c.toNat ≠ 0x7F := by revert c; decide

theorem gtSigned_A0 (c : Byte) : gtSigned 0xA0#8 c = true ↔ 0x80 ≤ c.toNat ∧ c.toNat ≤ 0x9F := by
  revert c; decide

theorem gtSigned_90 (c : Byte) : gtSigned 0x90#8 c = true ↔ 0x80 ≤ c.toNat ∧ c.toNat ≤ 0x8F := by
  revert c; decide

theorem entry_sminTable (a : Byte) :
    entry sminTable (highNibble a) =
      if a.toNat / 16 = 14 then 0xA0#8 else if a.toNat / 16 = 15 then 0x90#8 else 0x7F#8 := by
  revert a; decide

/-- The two compares of step g, by byte values. -/
theorem overlong_iff (a c : Byte) :
    (gtSigned (entry iminTable (highNibble a)) a = true ∧ gtSigned (entry sminTable (highNibble a)) c = true) ↔
      ((a.toNat = 0xC0 ∨ a.toNat = 0xC1) ∧ c.toNat ≠ 0x7F) ∨ (a.toNat = 0xE0 ∧ 0x80 ≤ c.toNat ∧ c.toNat ≤ 0x9F) ∨
        (a.toNat = 0xF0 ∧ 0x80 ≤ c.toNat ∧ c.toNat ≤ 0x8F) := by
  rw [gtSigned_imin, entry_sminTable]
  split_ifs <;> simp only [gtSigned_7F, gtSigned_A0, gtSigned_90] <;> omega

theorem byte_eq_iff (a b : Byte) : a = b ↔ a.toNat = b.toNat := BitVec.toNat_inj.symm

/-! ### One lane of the checks -/

section Lane
variable {w : Width} {i : Nat}

theorem initLengths_toNat (cur : Lanes w) (h : i < w.bytes) : (initLengths cur)[i].toNat = lenOf cur[i].toNat := by
  simp only [initLengths, lookup16_getElem, hiNibbles_getElem, entry_lenTable]

theorem errLen_eq_zero (car init : Lanes w) (h : i < w.bytes) :
    (errLen car init)[i] = 0x00#8 ↔
      ¬ (0 < init[i].toNat ∧ init[i].toNat < car[i].toNat ∨ init[i].toNat = 0 ∧ car[i].toNat = 0) := by
  simp only [errLen, eqm_getElem, gtu_getElem, broadcast_getElem, mask_eq_zero, decide_eq_false_iff_not, mask_inj,
    gtUnsigned, decide_eq_decide, BitVec.toNat_ofNat]
  omega

theorem errCeil_eq_zero (cur : Lanes w) (h : i < w.bytes) : (errCeil cur)[i] = 0x00#8 ↔ cur[i].toNat ≤ 0xF4 := by
  simp only [errCeil, subSatK_getElem, byte_eq_iff, subSat_toNat, byteCeiling, BitVec.toNat_ofNat]
  omega

theorem errMax2_eq_zero (back cur : Lanes w) (h : i < w.bytes) :
    (errMax2 back cur)[i] = 0x00#8 ↔
      ¬ (back[i].toNat = 0xED ∧ 0x9F < cur[i].toNat ∨ back[i].toNat = 0xF4 ∧ 0x8F < cur[i].toNat) := by
  simp only [errMax2, orLanes_getElem, andLanes_getElem, eqLanes_getElem, gtu_getElem, broadcast_getElem, mask_and,
    mask_or, mask_eq_zero, gtUnsigned, surrogateLeader, surrogateMax, lastPlaneLeader, lastPlaneMax,
    Bool.or_eq_false_iff, Bool.and_eq_false_iff, decide_eq_false_iff_not]
  simp only [byte_eq_iff, BitVec.toNat_ofNat]
  omega

theorem errOver_eq_zero (back : Lanes w) (backHi : Nibbles w) (cur : Lanes w) (h : i < w.bytes)
    (hh : backHi[i] = highNibble back[i]) :
    (errOver back backHi cur)[i] = 0x00#8 ↔
      ¬ (((back[i].toNat = 0xC0 ∨ back[i].toNat = 0xC1) ∧ cur[i].toNat ≠ 0x7F) ∨
        (back[i].toNat = 0xE0 ∧ 0x80 ≤ cur[i].toNat ∧ cur[i].toNat ≤ 0x9F) ∨
        (back[i].toNat = 0xF0 ∧ 0x80 ≤ cur[i].toNat ∧ cur[i].toNat ≤ 0x8F)) := by
  rw [← overlong_iff]
  simp only [errOver, andLanes_getElem, gts_getElem, lookup16_getElem, hh, mask_and, mask_eq_zero, ← Bool.not_eq_true,
    Bool.and_eq_true]

theorem off1Hi_agrees {b : Block w} (hb : b.HiAgrees) (cur : Lanes w) (h : i < w.bytes) :
    (off1Hi b.prevHi (hiNibbles cur))[i] = highNibble (off1 b.prevRaw cur)[i] := by
  have hw := w.sixteen_le_bytes
  simp only [off1Hi, off1, shift1_getElem]
  split
  · apply BitVec.eq_of_toNat_eq
    rw [highNibble_toNat]
    exact hb _ (by omega)
  · simp

/-- A lane of the slow path's error vector is zero exactly when no check fires there. -/
theorem slowError_eq_zero {b : Block w} (hb : b.HiAgrees) (cur : Lanes w) (h : i < w.bytes) :
    (slowError b cur)[i] = 0x00#8 ↔
      ¬ LaneBad (off1 b.prevRaw cur)[i].toNat cur[i].toNat (carried cur b.prevCar)[i].toNat := by
  simp only [slowError, orLanes_getElem, BitVec.or_eq_zero_iff, errLen_eq_zero, errCeil_eq_zero, errMax2_eq_zero,
    errOver_eq_zero _ _ _ h (off1Hi_agrees hb cur h), initLengths_toNat, LaneBad]
  omega

end Lane

/-! ### The window as a recurrence -/

section Recurrence
variable {w : Width} (b : Block w) (cur : Lanes w)

/-- Byte i of the window. -/
def byteAt (i : Nat) : Nat := if h : i < w.bytes then cur[i].toNat else 0

/-- The last lane but k of a vector. -/
def lastLane (v : Lanes w) (k : Nat) : Nat := if h : w.bytes - 1 - k < w.bytes then v[w.bytes - 1 - k].toNat else 0

/-- The byte before byte i. -/
def backAt : Nat → Nat
  | 0 => lastLane b.prevRaw 0
  | i + 1 => byteAt cur i

/-- The one-position carry into lane i. -/
def oneAt : Nat → Nat
  | 0 => lastLane b.prevCar 0 - 1
  | i + 1 => lenOf (byteAt cur i) - 1

/-- The two-position carry into lane i. -/
def twoAt : Nat → Nat
  | 0 => lastLane b.prevCar 1 - 2
  | 1 => lastLane b.prevCar 0 - 2
  | i + 2 => lenOf (byteAt cur i) + oneAt b cur i - 2

/-- The carried length of lane i. -/
def carAt (i : Nat) : Nat := lenOf (byteAt cur i) + oneAt b cur i + twoAt b cur i

theorem byteAt_eq {i : Nat} (h : i < w.bytes) : byteAt cur i = cur[i].toNat := by simp [byteAt, h]

theorem lenOf_le (c : Nat) : lenOf c ≤ 4 := by unfold lenOf; split_ifs <;> omega

theorem lastLane_eq (v : Lanes w) (k : Nat) (h : w.bytes - 1 - k < w.bytes) :
    lastLane v k = v[w.bytes - 1 - k].toNat := by simp [lastLane, h]

theorem off1_toNat {i : Nat} (h : i < w.bytes) : (off1 b.prevRaw cur)[i].toNat = backAt b cur i := by
  have hw := w.sixteen_le_bytes
  simp only [off1, shift1_getElem]
  cases i with
  | zero => simp [backAt, lastLane, show w.bytes - 1 < w.bytes by omega]
  | succ i => simp [backAt, byteAt, show i < w.bytes by omega]

theorem carryOne_toNat {i : Nat} (h : i < w.bytes) :
    (carryOne b.prevCar (initLengths cur))[i].toNat = oneAt b cur i := by
  have hw := w.sixteen_le_bytes
  simp only [carryOne, subSatK_getElem, subSat_toNat, shift1_getElem]
  cases i with
  | zero => simp [oneAt, lastLane, show w.bytes - 1 < w.bytes by omega]
  | succ i => simp [oneAt, byteAt, show i < w.bytes by omega, initLengths_toNat]

variable {b}

theorem oneAt_le (h0 : lastLane b.prevCar 0 ≤ 100) (i : Nat) : oneAt b cur i ≤ 99 := by
  cases i with
  | zero => simp only [oneAt]; omega
  | succ i => have := lenOf_le (byteAt cur i); simp only [oneAt]; omega

theorem twoAt_le (h0 : lastLane b.prevCar 0 ≤ 100) (h1 : lastLane b.prevCar 1 ≤ 100) (i : Nat) :
    twoAt b cur i ≤ 101 := by
  match i with
  | 0 | 1 => simp only [twoAt]; omega
  | i + 2 =>
    have := oneAt_le cur h0 i
    have := lenOf_le (byteAt cur i)
    simp only [twoAt]
    omega

theorem runningSum_toNat (h0 : lastLane b.prevCar 0 ≤ 100) {i : Nat} (h : i < w.bytes) :
    (runningSum b.prevCar (initLengths cur))[i].toNat = lenOf (byteAt cur i) + oneAt b cur i := by
  have h1 := oneAt_le cur h0 i
  have h2 := lenOf_le (byteAt cur i)
  simp only [runningSum, addLanes_getElem, addWrap_toNat, carryOne_toNat b cur h, initLengths_toNat cur h,
    ← byteAt_eq cur h]
  omega

theorem carryTwo_toNat (h0 : lastLane b.prevCar 0 ≤ 100) {i : Nat} (h : i < w.bytes) :
    (carryTwo b.prevCar (runningSum b.prevCar (initLengths cur)))[i].toNat = twoAt b cur i := by
  have hw := w.sixteen_le_bytes
  simp only [carryTwo, subSatK_getElem, subSat_toNat, shift2_getElem]
  match i, h with
  | 0, _ => simp [twoAt, lastLane, show w.bytes - 1 - 1 = w.bytes - 2 by omega, show w.bytes - 2 < w.bytes by omega]
  | 1, _ => simp [twoAt, lastLane, show w.bytes - 1 < w.bytes by omega]
  | i + 2, h => simp [twoAt, runningSum_toNat cur h0 (show i < w.bytes by omega)]

/-- The carried lengths are the recurrence, where the last two lanes of `previous` leave the adds no room to wrap (R116,
R118). -/
theorem carried_toNat (h0 : lastLane b.prevCar 0 ≤ 100) (h1 : lastLane b.prevCar 1 ≤ 100) {i : Nat} (h : i < w.bytes) :
    (carried cur b.prevCar)[i].toNat = carAt b cur i := by
  have hr := runningSum_toNat cur h0 h
  have ht := carryTwo_toNat cur h0 h
  have := lenOf_le (byteAt cur i)
  have := oneAt_le cur h0 i
  have := twoAt_le cur h0 h1 i
  simp only [carried, carriedOf, addLanes_getElem, addWrap_toNat, hr, ht, carAt]
  omega

end Recurrence

end Sys2Proof.Machine
end

