-- ==== Sys2Proof/Laws/Decode.lean ====
section
/-! SUPPORT. The bus and the window it carries are inverse to each other; the opcode map. -/

namespace Sys2Proof

namespace Machine

theorem busNat_lt (bytes : List Byte) : busNat bytes < 2 ^ (8 * bytes.length) := by
  induction bytes with
  | nil => simp [busNat]
  | cons b rest ih =>
    have hb := b.isLt
    have hp : 2 ^ (8 * (rest.length + 1)) = 256 * 2 ^ (8 * rest.length) := by rw [Nat.mul_add, Nat.pow_add]; omega
    simp only [busNat, List.foldr_cons, List.length_cons] at *
    omega

/-- Byte i of a bus value is byte i of the list it was made from. -/
theorem busNat_byte (bytes : List Byte) (i : Nat) (h : i < bytes.length) :
    busNat bytes / 2 ^ (8 * i) % 256 = bytes[i].toNat := by
  induction bytes generalizing i with
  | nil => simp at h
  | cons b rest ih =>
    have hb := b.isLt
    cases i with
    | zero =>
      simp only [busNat, List.foldr_cons, Nat.mul_zero, Nat.pow_zero, Nat.div_one, List.getElem_cons_zero]
      omega
    | succ i =>
      have hp : 2 ^ (8 * (i + 1)) = 256 * 2 ^ (8 * i) := by rw [Nat.mul_add, Nat.pow_add]; omega
      have := ih i (by simpa using h)
      simp only [busNat, List.foldr_cons, List.getElem_cons_succ] at *
      have hd : ∀ x, (b.toNat + 256 * x) / 256 = x := by omega
      rw [hp, ← Nat.div_div_eq_div_mul, hd]
      exact this

theorem lanes_getElem (w : Width) (data : BitVec (8 * w.bytes)) (i : Nat) (h : i < w.bytes) :
    (lanes w data)[i] = data.extractLsb' (8 * i) 8 := by
  simp [lanes]

/-- What FEED's bus carries is read back as the same window (R43, R63). -/
theorem lanes_bus (w : Width) (bytes : List Byte) (h : bytes.length = w.bytes) :
    (lanes w (bus w bytes)).toList = bytes := by
  apply List.ext_getElem (by simp [h])
  intro i h1 h2
  simp only [Vector.getElem_toList, lanes_getElem]
  apply BitVec.eq_of_toNat_eq
  have hlt := busNat_lt bytes
  rw [h] at hlt
  rw [BitVec.extractLsb'_toNat, bus, BitVec.toNat_ofNat, Nat.mod_eq_of_lt hlt, Nat.shiftRight_eq_div_pow]
  exact busNat_byte bytes i h2

/-- A window read off the bus is driven as the same bus value (R43). -/
theorem bus_lanes (w : Width) (d : BitVec (8 * w.bytes)) : bus w (lanes w d).toList = d := by
  apply BitVec.eq_of_getLsbD_eq
  intro i hi
  have hq : i / 8 < w.bytes := by omega
  have h1 := lanes_getElem w d (i / 8) hq
  have h2 := lanes_getElem w (bus w (lanes w d).toList) (i / 8) hq
  have h3 : lanes w (bus w (lanes w d).toList) = lanes w d := Vector.toList_inj.mp (lanes_bus w _ (by simp))
  rw [h3, h1] at h2
  have := congrArg (fun b : BitVec 8 => b.getLsbD (i % 8)) h2
  simp only [BitVec.getLsbD_extractLsb'] at this
  rw [show 8 * (i / 8) + i % 8 = i by omega] at this
  simp [show i % 8 < 8 by omega] at this
  exact this.symm

end Machine

/-- The decoder on each value of `cmd_op` (R62): the term has that opcode. -/
theorem decode_opcode {w : Width} (c : Command w) : (decode c).opcode = c.op := by
  have h : ∀ op : BitVec 4, ∀ d, (decode (w := w) ⟨op, d⟩).opcode = op := by
    intro op d
    have hop : op = 0#4 ∨ op = 1#4 ∨ op = 2#4 ∨ op = 3#4 ∨ op = 4#4 ∨ op = 5#4 ∨ op = 6#4 ∨ op = 7#4 ∨ op = 8#4 ∨
        op = 9#4 ∨ op = 10#4 ∨ op = 11#4 ∨ op = 12#4 ∨ op = 13#4 ∨ op = 14#4 ∨ op = 15#4 := by revert op; decide
    rcases hop with h | h | h | h | h | h | h | h | h | h | h | h | h | h | h | h <;> subst h <;> rfl
  exact h c.op c.data

/-- The decoder on a FEED word (R62, R63). -/
theorem decode_feed {w : Width} (d : BitVec (8 * w.bytes)) :
    decode (w := w) ⟨0x2#4, d⟩ = .feed (Machine.lanes w d).toList := rfl

end Sys2Proof
end

