-- ==== Sys2Proof/Laws/Driver.lean ====
section
/-! SUPPORT. The host's side: its memory, its window loads, its windows; runs of a core joined. -/

namespace Sys2Proof.Machine

theorem byteAt_ofBytes_before (start : Nat) (l : List Byte) (a : Nat) (h : a < start) :
    (HostMemory.ofBytes start l).byteAt a = none := by
  induction l generalizing start with
  | nil => rfl
  | cons b rest ih =>
    have := ih (start + 1) (by omega)
    simp only [HostMemory.byteAt, HostMemory.ofBytes, List.lookup_cons] at *
    rw [show (a == start) = false by simp; omega]
    exact this

/-- Memory made from a list holds the list from `start` upwards. -/
theorem byteAt_ofBytes (start : Nat) (l : List Byte) (i : Nat) :
    (HostMemory.ofBytes start l).byteAt (start + i) = l[i]? := by
  induction l generalizing start i with
  | nil => rfl
  | cons b rest ih =>
    cases i with
    | zero => simp [HostMemory.byteAt, HostMemory.ofBytes]
    | succ i =>
      have := ih (start + 1) i
      simp only [HostMemory.byteAt, HostMemory.ofBytes, List.lookup_cons] at *
      rw [show (start + (i + 1) == start) = false by simp]
      rw [show start + (i + 1) = start + 1 + i by omega]
      simpa using this

/-- Memory made from a list has the canonical form. -/
theorem ofBytes_wf (start : Nat) (l : List Byte) : (HostMemory.ofBytes start l).wf := by
  have hlow : ∀ (l : List Byte) (k : Nat), ∀ c ∈ HostMemory.ofBytes k l, k ≤ c.1 := by
    intro l
    induction l with
    | nil => intro k c hc; simp [HostMemory.ofBytes] at hc
    | cons b rest ih =>
      intro k c hc
      simp only [HostMemory.ofBytes, List.mem_cons] at hc
      rcases hc with rfl | hc
      · simp
      · have := ih (k + 1) c hc; omega
  induction l generalizing start with
  | nil => exact List.Pairwise.nil
  | cons b rest ih =>
    exact List.Pairwise.cons (fun c hc => hlow rest (start + 1) c hc) (ih (start + 1))

/-- A read of n bytes succeeds exactly where all n are readable, with those bytes (00_scope R12, 20_memory R42). -/
theorem memRead_ok_iff (m : HostMemory) (a n : Nat) (bytes : List Byte) :
    memRead m a n = .ok bytes ↔ bytes.length = n ∧ ∀ i, i < n → m.byteAt (a + i) = bytes[i]? := by
  induction n generalizing a bytes with
  | zero => 
    simp only [memRead, Except.ok.injEq]
    constructor
    · rintro rfl; simp
    · intro h; exact (List.eq_nil_of_length_eq_zero h.1).symm
  | succ n ih =>
    rw [memRead]
    cases hb : m.byteAt a with
    | none => 
      simp only [reduceCtorEq, false_iff]
      rintro ⟨hl, h⟩
      have := h 0 (by omega)
      rw [Nat.add_zero, hb] at this
      have := List.getElem?_eq_none_iff.mp this.symm
      omega
    | some b =>
      have key : ∀ bs, memRead m (a + 1) n = .ok bs ↔ bs.length = n ∧ ∀ i, i < n → m.byteAt (a + 1 + i) = bs[i]? := ih (a + 1)
      constructor
      · intro h
        cases hm : memRead m (a + 1) n with
        | error r => simp [hm] at h
        | ok bs =>
          simp only [hm, Except.ok.injEq] at h
          subst h
          obtain ⟨k1, k2⟩ := (key bs).mp hm
          refine ⟨by simp [k1], ?_⟩
          intro i hi
          cases i with
          | zero => simp [hb]
          | succ i => rw [show a + (i + 1) = a + 1 + i by omega, k2 i (by omega)]; simp
      · rintro ⟨hl, h⟩
        cases bytes with
        | nil => simp at hl
        | cons c bs =>
          have h0 := h 0 (by omega)
          rw [Nat.add_zero, hb] at h0
          simp only [List.getElem?_cons_zero, Option.some.injEq] at h0
          have : memRead m (a + 1) n = .ok bs := by
            rw [key]
            refine ⟨by simpa using hl, fun i hi => ?_⟩
            have := h (i + 1) (by omega)
            rw [show a + (i + 1) = a + 1 + i by omega] at this
            simpa using this
          simp [this, h0]

/-- A read succeeds, or is refused at the first unreadable byte it meets. -/
theorem memRead_cases (m : HostMemory) (a n : Nat) :
    (∃ bytes, memRead m a n = .ok bytes) ∨ ∃ i, i < n ∧ m.byteAt (a + i) = none ∧ memRead m a n = .error (.unreadable (a + i)) := by
  induction n generalizing a with
  | zero => exact .inl ⟨[], rfl⟩
  | succ n ih =>
    rw [memRead]
    cases hb : m.byteAt a with
    | none => exact .inr ⟨0, by omega, by simpa using hb, by simp⟩
    | some b =>
      rcases ih (a + 1) with ⟨bs, h⟩ | ⟨i, hi, h0, h⟩
      · exact .inl ⟨b :: bs, by simp [h]⟩
      · refine .inr ⟨i + 1, by omega, ?_, ?_⟩
        · rw [← h0]; congr 1; omega
        · simp only [h, Except.error.injEq, Refusal.unreadable.injEq]; omega

/-- `ceil(len / W)` windows hold `len` bytes with fewer than W to spare (70_reset R234). -/
theorem windowCount_bounds (w : Width) (len : Nat) :
    len ≤ windowCount w len * w.bytes ∧ windowCount w len * w.bytes < len + w.bytes := by
  cases w <;> simp only [windowCount, Width.bytes] <;> omega

theorem streamWindow_length (w : Width) (pad : Byte) (bytes : List Byte) (k : Nat) : (streamWindow w pad bytes k).length = w.bytes := by
  simp [streamWindow, padded]

/-! ### Runs of a core -/

/-- A run of n + m steps goes on from the run of n steps. -/
theorem core_run_append (M : Host.Core) (n m : Nat) (s t : M.State) (h : Host.Core.run M n s = .next t) :
    Host.Core.run M (n + m) s = Host.Core.run M m t := by
  induction n generalizing s with
  | zero => cases h; rw [Nat.zero_add]
  | succ n ih =>
    rw [Nat.add_right_comm]
    simp only [Host.Core.run] at *
    cases hs : M.step s with
    | next s' => rw [hs] at h; exact ih s' h
    | fault r => rw [hs] at h; cases h
    | refused r => rw [hs] at h; cases h

theorem core_run_next (M : Host.Core) (n : Nat) (s t : M.State) (h : M.step s = .next t) :
    Host.Core.run M (n + 1) s = Host.Core.run M n t := by
  simp only [Host.Core.run, h]

/-- The step of an issued command that decodes to itself. -/
theorem step_issued (w : Width) (i : Instr) (hd : decode (encode w i) = i) (b : Block w) (o : Response)
    (rest : List (PortIn w)) :
    step ⟨w, b, o, portOf w i :: rest⟩ = .next ⟨w, blockAfter i b, responseOf i b, rest⟩ := by
  have hw : i.WellFormed w := by
    have h := decode_wellFormed (encode w i)
    rwa [hd] at h
  rw [step_command _ (portOf w i) rest rfl rfl]
  simp only [portOf, hd]
  exact exec_wellFormed i ⟨w, b, o, rest⟩ hw

/-- A program of commands that decode to themselves runs to its end: the block has been through each command in turn. -/
theorem run_program (w : Width) (prog : List Instr) (hd : ∀ i ∈ prog, decode (encode w i) = i) (b : Block w) (o : Response)
    (rest : List (PortIn w)) :
    ∃ o', Host.Core.run Sys2Proof.core prog.length ⟨w, b, o, prog.map (portOf w) ++ rest⟩ =
      .next ⟨w, prog.foldl (fun b i => blockAfter i b) b, o', rest⟩ := by
  induction prog generalizing b o with
  | nil => exact ⟨o, rfl⟩
  | cons i is ih =>
    have hi := hd i (by simp)
    have hs : step ⟨w, b, o, (i :: is).map (portOf w) ++ rest⟩ =
         .next ⟨w, blockAfter i b, responseOf i b, is.map (portOf w) ++ rest⟩ := step_issued w i hi b o _
    obtain ⟨o', ho⟩ := ih (fun j hj => hd j (by simp [hj])) (blockAfter i b) (responseOf i b)
    refine ⟨o', ?_⟩
    rw [List.length_cons]
    exact (core_run_next Sys2Proof.core is.length (⟨w, b, o, (i :: is).map (portOf w) ++ rest⟩ : State) _ hs).trans ho

/-! ### Results -/

/-- The results of a program's runs, from the block alone. -/
def programResults {w : Width} : Bool → Block w → List Instr → List Byte
  | _, _, [] => []
  | ended, b, i :: is =>
    if b.done && i == .query && !ended then b.status :: programResults true b is
    else programResults (ended && !(i == .init)) (blockAfter i b) is

/-- A run that has had its result gives no other before an INIT (R240). -/
theorem programResults_ended {w : Width} (b : Block w) (q : List Instr) (h : ∀ i ∈ q, i ≠ .init) :
    programResults true b q = [] := by
  induction q generalizing b with
  | nil => rfl
  | cons i q ih =>
    have hi : (i == Instr.init) = false := by simpa using h i (by simp)
    simp [programResults, hi, ih _ (fun j hj => h j (by simp [hj]))]

/-- A program's results, then those of what follows it, from the block it leaves; without a result so far, none is
remembered. -/
theorem programResults_append {w : Width} (ended : Bool) (b : Block w) (p : List Instr) :
    ∃ e, (∀ q, programResults ended b (p ++ q) =
        programResults ended b p ++ programResults e (p.foldl (fun b i => blockAfter i b) b) q) ∧
      (programResults ended b p = [] → ended = false → e = false) := by
  induction p generalizing ended b with
  | nil => exact ⟨ended, fun _ => rfl, fun _ h => h⟩
  | cons i p ih =>
    by_cases h : (b.done && i == .query && !ended) = true
    · obtain rfl : i = .query := by simp at h; exact h.1.2
      obtain ⟨e, h1, -⟩ := ih true b
      refine ⟨e, fun q => ?_, fun hn => ?_⟩
      · simp only [List.cons_append, programResults, if_pos h, h1, List.foldl_cons, blockAfter]
      · simp only [programResults, if_pos h, reduceCtorEq] at hn
    · obtain ⟨e, h1, h2⟩ := ih (ended && !(i == .init)) (blockAfter i b)
      refine ⟨e, fun q => ?_, fun hn he => ?_⟩
      · simp only [List.cons_append, programResults, if_neg h, h1, List.foldl_cons]
      · simp only [programResults, if_neg h] at hn
        exact h2 hn (by simp [he])

/-- The results of an issued program do not depend on the response ports. -/
theorem resultsOf_issued (w : Width) (prog : List Instr) (hd : ∀ i ∈ prog, decode (encode w i) = i) (ended : Bool)
    (b : Block w) (o : Response) :
    resultsOf prog.length ended ⟨w, b, o, prog.map (portOf w)⟩ = programResults ended b prog := by
  induction prog generalizing ended b o with
  | nil => rfl
  | cons i is ih =>
    have hi := hd i (by simp)
    have hp : State.performs ⟨w, b, o, (i :: is).map (portOf w)⟩ = some i := congrArg some hi
    have hs : step ⟨w, b, o, (i :: is).map (portOf w)⟩ =
        .next ⟨w, blockAfter i b, responseOf i b, is.map (portOf w)⟩ := step_issued w i hi b o _
    have ih := ih fun j hj => hd j (by simp [hj])
    simp only [List.length_cons, resultsOf, hs, State.endsRun, State.startsRun, hp, ih, programResults]
    by_cases hq : i = .query
    · subst hq; simp [blockAfter, responseOf, Response.some]
    · simp [hq]

end Sys2Proof.Machine
end

