-- ==== Sys2Proof/Laws/PerInstr.lean ====
section
/-! SUPPORT. Statements made of each command as syntax. Family EncodedWord: a command's word carries its opcode of the table, and in format C nothing else. -/

namespace Sys2Proof.Laws.EncodedWord

/-- The opcode of 30_encoding R62 stands on `cmd_op` at every width, and every command but FEED leaves `cmd_data` zero (log
entry 5). -/
def Statement (i : Instr) : Prop :=
  ∀ w : Width, (encode w i).op = i.opcode ∧ ((∀ cur, i ≠ .feed cur) → (encode w i).data = 0#_)

theorem nop : Statement .nop := fun _ => ⟨rfl, fun _ => rfl⟩
theorem init : Statement .init := fun _ => ⟨rfl, fun _ => rfl⟩
theorem feed (cur : List Byte) : Statement (.feed cur) := fun _ => ⟨rfl, fun h => absurd rfl (h cur)⟩
theorem finish : Statement .finish := fun _ => ⟨rfl, fun _ => rfl⟩
theorem query : Statement .query := fun _ => ⟨rfl, fun _ => rfl⟩
theorem op5 : Statement .op5 := fun _ => ⟨rfl, fun _ => rfl⟩
theorem op6 : Statement .op6 := fun _ => ⟨rfl, fun _ => rfl⟩
theorem op7 : Statement .op7 := fun _ => ⟨rfl, fun _ => rfl⟩
theorem op8 : Statement .op8 := fun _ => ⟨rfl, fun _ => rfl⟩
theorem op9 : Statement .op9 := fun _ => ⟨rfl, fun _ => rfl⟩
theorem opA : Statement .opA := fun _ => ⟨rfl, fun _ => rfl⟩
theorem opB : Statement .opB := fun _ => ⟨rfl, fun _ => rfl⟩
theorem opC : Statement .opC := fun _ => ⟨rfl, fun _ => rfl⟩
theorem opD : Statement .opD := fun _ => ⟨rfl, fun _ => rfl⟩
theorem opE : Statement .opE := fun _ => ⟨rfl, fun _ => rfl⟩
theorem opF : Statement .opF := fun _ => ⟨rfl, fun _ => rfl⟩

end Sys2Proof.Laws.EncodedWord
end

