-- ==== Sys2Proof/Laws/Utf8Grammar.lean ====
section
/-! SUPPORT. The decoder accepts exactly the strings of the reference grammar (93 G1). -/

namespace Sys2Proof.Machine

theorem utf8Run_cons {p q : Utf8State} {c : Byte} (cs : List Byte) (h : p.next c.toNat = some q) :
    utf8Run p (c :: cs) = utf8Run q cs := by simp only [utf8Run, h]

theorem utf8Inside_of_inRange {lo hi : Nat} {c : Byte} (q : Utf8State) (h : inRange lo hi c) :
    utf8Inside lo hi c.toNat q = some q := utf8Inside_eq_some.mpr ⟨h, rfl⟩

/-- A byte string whose reading begins inside a character begins with a byte of the range. -/
theorem utf8Run_inside {p q : Utf8State} {lo hi : Nat} (hp : p ≠ .start) (hn : ∀ c, p.next c = utf8Inside lo hi c q)
    {l : List Byte} (h : utf8Run p l = some .start) :
    ∃ b t, l = b :: t ∧ inRange lo hi b ∧ utf8Run q t = some .start := by
  cases l with
  | nil => exact absurd (Option.some.inj h) hp
  | cons b t =>
    simp only [utf8Run, hn] at h
    cases hi' : utf8Inside lo hi b.toNat q with
    | none => simp [hi'] at h
    | some r =>
      obtain ⟨hr, rfl⟩ := utf8Inside_eq_some.mp hi'
      exact ⟨b, t, rfl, hr, by simpa [hi'] using h⟩

theorem utf8Run_one {l : List Byte} (h : utf8Run .one l = some .start) :
    ∃ b t, l = b :: t ∧ inRange 0x80 0xBF b ∧ utf8Run .start t = some .start :=
  utf8Run_inside (by decide) (fun _ => rfl) h

theorem utf8Run_two {l : List Byte} (h : utf8Run .two l = some .start) :
    ∃ b t, l = b :: t ∧ inRange 0x80 0xBF b ∧ utf8Run .one t = some .start :=
  utf8Run_inside (by decide) (fun _ => rfl) h

theorem utf8Lead_inv {c : Nat} {q : Utf8State} (h : utf8Lead c = some q) :
    q = .start ∧ c ≤ 0x7F ∨ q = .afterC0 ∨ q = .one ∧ 0xC2 ≤ c ∧ c ≤ 0xDF ∨ q = .afterE0 ∧ c = 0xE0 ∨
      q = .afterED ∧ c = 0xED ∨ q = .two ∧ (0xE1 ≤ c ∧ c ≤ 0xEC ∨ 0xEE ≤ c ∧ c ≤ 0xEF) ∨ q = .afterF0 ∧ c = 0xF0 ∨
      q = .three ∧ 0xF1 ≤ c ∧ c ≤ 0xF3 ∨ q = .afterF4 ∧ c = 0xF4 := by
  unfold utf8Lead at h
  split_ifs at h <;> simp only [Option.some.injEq] at h <;> subst h <;>
    simp only [reduceCtorEq, true_and, false_and, false_or, or_false] <;> omega

/-- Where a character begins, the byte's range tells what follows. -/
theorem utf8Lead_of {c : Nat} {q : Utf8State}
    (h : q = .start ∧ c ≤ 0x7F ∨ q = .one ∧ 0xC2 ≤ c ∧ c ≤ 0xDF ∨ q = .afterE0 ∧ c = 0xE0 ∨ q = .afterED ∧ c = 0xED ∨
      q = .two ∧ (0xE1 ≤ c ∧ c ≤ 0xEC ∨ 0xEE ≤ c ∧ c ≤ 0xEF) ∨ q = .afterF0 ∧ c = 0xF0 ∨
      q = .three ∧ 0xF1 ≤ c ∧ c ≤ 0xF3 ∨ q = .afterF4 ∧ c = 0xF4) : utf8Lead c = some q := by
  unfold utf8Lead
  split_ifs <;> try omega
  all_goals cases q <;> simp only [reduceCtorEq, false_and, true_and, false_or, or_false] at h ⊢ <;> omega

theorem utf8Run_lead {a : Byte} (q : Utf8State) (l : List Byte) (h : utf8Lead a.toNat = some q) :
    utf8Run .start (a :: l) = utf8Run q l := utf8Run_cons l h

theorem utf8Run_step {p : Utf8State} (q : Utf8State) {lo hi : Nat} {b : Byte} (l : List Byte)
    (hn : ∀ c, p.next c = utf8Inside lo hi c q) (hr : inRange lo hi b) : utf8Run p (b :: l) = utf8Run q l :=
  utf8Run_cons l ((hn _).trans (utf8Inside_of_inRange _ hr))

theorem utf8Char_run {c : List Byte} (h : Utf8Char c) (rest : List Byte) :
    utf8Run .start (c ++ rest) = utf8Run .start rest := by
  cases h with
  | ascii ha => exact utf8Run_lead .start rest (utf8Lead_of (by simp; omega))
  | two ha hb =>
    refine (utf8Run_lead .one _ (utf8Lead_of (by simp; omega))).trans ?_
    exact utf8Run_step .start _ (fun _ => rfl) hb
  | threeE0 ha hb hc =>
    refine (utf8Run_lead .afterE0 _ (utf8Lead_of (by simp; omega))).trans ?_
    refine (utf8Run_step .one _ (fun _ => rfl) hb).trans ?_
    exact utf8Run_step .start _ (fun _ => rfl) hc
  | threeE1 ha hb hc =>
    refine (utf8Run_lead .two _ (utf8Lead_of (by simp; omega))).trans ?_
    refine (utf8Run_step .one _ (fun _ => rfl) hb).trans ?_
    exact utf8Run_step .start _ (fun _ => rfl) hc
  | threeED ha hb hc =>
    refine (utf8Run_lead .afterED _ (utf8Lead_of (by simp; omega))).trans ?_
    refine (utf8Run_step .one _ (fun _ => rfl) hb).trans ?_
    exact utf8Run_step .start _ (fun _ => rfl) hc
  | threeEE ha hb hc =>
    refine (utf8Run_lead .two _ (utf8Lead_of (by simp; omega))).trans ?_
    refine (utf8Run_step .one _ (fun _ => rfl) hb).trans ?_
    exact utf8Run_step .start _ (fun _ => rfl) hc
  | fourF0 ha hb hc hd =>
    refine (utf8Run_lead .afterF0 _ (utf8Lead_of (by simp; omega))).trans ?_
    refine (utf8Run_step .two _ (fun _ => rfl) hb).trans ?_
    refine (utf8Run_step .one _ (fun _ => rfl) hc).trans ?_
    exact utf8Run_step .start _ (fun _ => rfl) hd
  | fourF1 ha hb hc hd =>
    refine (utf8Run_lead .three _ (utf8Lead_of (by simp; omega))).trans ?_
    refine (utf8Run_step .two _ (fun _ => rfl) hb).trans ?_
    refine (utf8Run_step .one _ (fun _ => rfl) hc).trans ?_
    exact utf8Run_step .start _ (fun _ => rfl) hd
  | fourF4 ha hb hc hd =>
    refine (utf8Run_lead .afterF4 _ (utf8Lead_of (by simp; omega))).trans ?_
    refine (utf8Run_step .two _ (fun _ => rfl) hb).trans ?_
    refine (utf8Run_step .one _ (fun _ => rfl) hc).trans ?_
    exact utf8Run_step .start _ (fun _ => rfl) hd

/-- A string the decoder accepts begins with a character of the grammar. -/
theorem utf8Run_split {a : Byte} {t : List Byte} (h : utf8Run .start (a :: t) = some .start) :
    ∃ c rest, a :: t = c ++ rest ∧ Utf8Char c ∧ utf8Run .start rest = some .start := by
  simp only [utf8Run, Utf8State.next] at h
  cases hq : utf8Lead a.toNat with
  | none => simp [hq] at h
  | some q =>
    simp only [hq] at h
    rcases utf8Lead_inv hq with ⟨rfl, ha⟩ | rfl | ⟨rfl, ha⟩ | ⟨rfl, ha⟩ | ⟨rfl, ha⟩ | ⟨rfl, ha⟩ | ⟨rfl, ha⟩ |
      ⟨rfl, ha⟩ | ⟨rfl, ha⟩
    · exact ⟨[a], t, rfl, .ascii (by omega), h⟩
    · cases t with
      | nil => simp [utf8Run] at h
      | cons b t => simp [utf8Run, Utf8State.next] at h
    · obtain ⟨b, t, rfl, hb, h⟩ := utf8Run_one h
      exact ⟨[a, b], t, rfl, .two ha hb, h⟩
    · obtain ⟨b, t, rfl, hb, h⟩ := utf8Run_inside (q := .one) (by decide) (fun _ => rfl) h
      obtain ⟨c, t, rfl, hc, h⟩ := utf8Run_one h
      exact ⟨[a, b, c], t, rfl, .threeE0 (by omega) hb hc, h⟩
    · obtain ⟨b, t, rfl, hb, h⟩ := utf8Run_inside (q := .one) (by decide) (fun _ => rfl) h
      obtain ⟨c, t, rfl, hc, h⟩ := utf8Run_one h
      exact ⟨[a, b, c], t, rfl, .threeED (by omega) hb hc, h⟩
    · obtain ⟨b, t, rfl, hb, h⟩ := utf8Run_two h
      obtain ⟨c, t, rfl, hc, h⟩ := utf8Run_one h
      rcases ha with ha | ha
      · exact ⟨[a, b, c], t, rfl, .threeE1 ha hb hc, h⟩
      · exact ⟨[a, b, c], t, rfl, .threeEE ha hb hc, h⟩
    · obtain ⟨b, t, rfl, hb, h⟩ := utf8Run_inside (q := .two) (by decide) (fun _ => rfl) h
      obtain ⟨c, t, rfl, hc, h⟩ := utf8Run_two h
      obtain ⟨d, t, rfl, hd, h⟩ := utf8Run_one h
      exact ⟨[a, b, c, d], t, rfl, .fourF0 (by omega) hb hc hd, h⟩
    · obtain ⟨b, t, rfl, hb, h⟩ := utf8Run_inside (q := .two) (by decide) (fun _ => rfl) h
      obtain ⟨c, t, rfl, hc, h⟩ := utf8Run_two h
      obtain ⟨d, t, rfl, hd, h⟩ := utf8Run_one h
      exact ⟨[a, b, c, d], t, rfl, .fourF1 ha hb hc hd, h⟩
    · obtain ⟨b, t, rfl, hb, h⟩ := utf8Run_inside (q := .two) (by decide) (fun _ => rfl) h
      obtain ⟨c, t, rfl, hc, h⟩ := utf8Run_two h
      obtain ⟨d, t, rfl, hd, h⟩ := utf8Run_one h
      exact ⟨[a, b, c, d], t, rfl, .fourF4 (by omega) hb hc hd, h⟩

theorem utf8Char_pos {c : List Byte} (h : Utf8Char c) : 0 < c.length := by cases h <;> simp

theorem wellFormed_of_run (n : Nat) : ∀ l : List Byte, l.length ≤ n → utf8Run .start l = some .start →
    WellFormedUtf8 l := by
  induction n with
  | zero =>
    intro l hl _
    obtain rfl : l = [] := List.eq_nil_of_length_eq_zero (by omega)
    exact .nil
  | succ n ih =>
    intro l hl h
    cases l with
    | nil => exact .nil
    | cons a t =>
      obtain ⟨c, rest, he, hc, hr⟩ := utf8Run_split h
      rw [he] at hl ⊢
      have := utf8Char_pos hc
      rw [List.length_append] at hl
      exact .cons hc (ih rest (by omega) hr)

/-- The decoder accepts exactly the well-formed strings. -/
theorem utf8Run_accepts_iff (l : List Byte) : utf8Run .start l = some .start ↔ WellFormedUtf8 l := by
  refine ⟨wellFormed_of_run l.length l le_rfl, fun h => ?_⟩
  induction h with
  | nil => rfl
  | cons hc _ ih => rw [utf8Char_run hc, ih]

end Sys2Proof.Machine
end

