-- ==== Sys2Proof/Laws/Utf8Window.lean ====
section
/-! SUPPORT. The block simulates the decoder of the reference grammar, one window at a time. -/

namespace Sys2Proof.Machine

/-- The block's `previous`, in a run without errors, agrees with the decoder's state. -/
structure BlockAgrees {w : Width} (b : Block w) (p : Utf8State) : Prop where
  leader : LeaderAgrees p (lastLane b.prevRaw 0)
  last : lastLane b.prevCar 0 - 1 = p.rem
  carries : CarriesAgree p.rem (lastLane b.prevCar 0 - 1) (lastLane b.prevCar 1 - 2) (lastLane b.prevCar 0 - 2)
  small : ∀ i, (h : i < w.bytes) → b.prevCar[i].toNat ≤ 9
  nibbles : b.HiAgrees

section Scan
variable {w : Width} {b : Block w} {p : Utf8State}

theorem lastLane_le {v : Lanes w} {n : Nat} (h : ∀ i, (hi : i < w.bytes) → v[i].toNat ≤ n) (k : Nat) :
    lastLane v k ≤ n := by
  have hw := w.sixteen_le_bytes
  rw [lastLane_eq v k (by omega)]
  exact h _ _

/-- Lane by lane: the decoder has read the first i bytes exactly when no check fired in their lanes, and then the carries
agree with its state, exactly so once the window's own bytes decide them. -/
theorem scan (hb : BlockAgrees b p) (cur : Lanes w) (i : Nat) (hi : i ≤ w.bytes) :
    ((utf8Run p (cur.toList.take i)).isSome = true ↔
        ∀ j < i, ¬ LaneBad (backAt b cur j) (byteAt cur j) (carAt b cur j)) ∧
      ∀ q, utf8Run p (cur.toList.take i) = some q →
        LaneAgrees q (backAt b cur i) (oneAt b cur i) (twoAt b cur i) (twoAt b cur (i + 1)) ∧
          (CarriesExact q.rem (oneAt b cur i) (twoAt b cur i) (twoAt b cur (i + 1)) ∨ 0 < q.rem ∧ i + q.rem ≤ 3) := by
  induction i with
  | zero =>
    refine ⟨by simp [utf8Run], ?_⟩
    intro q hq
    simp only [List.take_zero, utf8Run, Option.some.injEq] at hq
    subst hq
    refine ⟨⟨hb.leader, hb.carries⟩, ?_⟩
    have h3 := rem_le_three p
    have hl := hb.last
    have hc := hb.carries
    unfold CarriesExact
    unfold CarriesAgree at hc
    simp only [oneAt, twoAt] at *
    omega
  | succ i ih =>
    obtain ⟨ihc, ihn⟩ := ih (by omega)
    have hlt : i < cur.toList.length := by simpa using hi
    have htake : cur.toList.take (i + 1) = cur.toList.take i ++ [cur[i]] := by
      rw [List.take_succ_eq_append_getElem hlt]
      simp
    rw [htake, utf8Run_append]
    cases hr : utf8Run p (cur.toList.take i) with
    | none =>
      rw [hr] at ihc
      refine ⟨?_, by simp⟩
      constructor
      · simp
      · intro h
        exact absurd (ihc.mpr fun j hj => h j (by omega)) (by simp)
    | some q =>
      rw [hr] at ihc
      obtain ⟨hq, hx⟩ := ihn q hr
      have hlane := lane_clean_iff hq (c := byteAt cur i)
      have hcar : lenOf (byteAt cur i) + oneAt b cur i + twoAt b cur i = carAt b cur i := rfl
      rw [hcar] at hlane
      simp only [Option.bind_some, utf8Run_single, ← byteAt_eq cur (show i < w.bytes by omega)]
      constructor
      · rw [← hlane]
        constructor
        · intro h j hj
          by_cases hji : j = i
          · subst hji; exact h
          · exact ihc.mp rfl j (by omega)
        · intro h
          exact h i (by omega)
      · intro r hnext
        refine ⟨lane_next hq hnext, ?_⟩
        rcases hx with hx | hx
        · exact .inl (lane_exact hq hnext hx).1
        · obtain ⟨hrem, -⟩ := next_rem hnext
          have hrl := rem_le_three r
          have hst : Utf8State.start.rem = 0 := rfl
          rcases hrem with ⟨rfl, -⟩ | ⟨h0, hrem⟩
          · omega
          · by_cases hz : r.rem = 0
            · refine .inl ?_
              obtain ⟨-, hc⟩ := lane_next hq hnext
              unfold CarriesAgree at hc
              unfold CarriesExact
              simp only [oneAt, twoAt, h0] at *
              omega
            · right
              omega

/-- From lane 3 on, a clean lane's carried length is one more than what is still to come (R117). -/
theorem scan_car (hb : BlockAgrees b p) (cur : Lanes w) {i : Nat} (h3 : 3 ≤ i) (hi : i < w.bytes) {q r : Utf8State}
    (hq : utf8Run p (cur.toList.take i) = some q) (hr : q.next (byteAt cur i) = some r) :
    carAt b cur i = r.rem + 1 := by
  obtain ⟨hl, hx⟩ := (scan hb cur i (by omega)).2 q hq
  exact (lane_exact hl hr (hx.resolve_right (by omega))).2

theorem run_take_succ (cur : Lanes w) {i : Nat} (hi : i < w.bytes) {r : Utf8State}
    (h : utf8Run p (cur.toList.take (i + 1)) = some r) :
    ∃ q, utf8Run p (cur.toList.take i) = some q ∧ q.next (byteAt cur i) = some r := by
  have hlt : i < cur.toList.length := by simpa using hi
  rw [List.take_succ_eq_append_getElem hlt, utf8Run_append] at h
  cases hr : utf8Run p (cur.toList.take i) with
  | none => simp [hr] at h
  | some q =>
    refine ⟨q, rfl, ?_⟩
    simpa [hr, utf8Run_single, byteAt_eq cur hi] using h

/-- The slow path's checks are silent exactly when the decoder reads the window. -/
theorem slow_clean_iff (hb : BlockAgrees b p) (cur : Lanes w) :
    anyLane (slowError b cur) = false ↔ (utf8Run p cur.toList).isSome = true := by
  have hs := (scan hb cur w.bytes le_rfl).1
  rw [List.take_of_length_le (by simp)] at hs
  have h0 : lastLane b.prevCar 0 ≤ 100 := by have := lastLane_le hb.small 0; omega
  have h1 : lastLane b.prevCar 1 ≤ 100 := by have := lastLane_le hb.small 1; omega
  rw [hs, anyLane_eq_false]
  refine forall_congr' fun i => forall_congr' fun hi => ?_
  rw [slowError_eq_zero hb.nibbles cur hi, off1_toNat b cur hi, carried_toNat cur h0 h1 hi, byteAt_eq cur hi]

/-- After a slow-path window the decoder reads, `previous` agrees with its state. -/
theorem slow_agrees (hb : BlockAgrees b p) (cur : Lanes w) {q : Utf8State} (hq : utf8Run p cur.toList = some q) :
    BlockAgrees (slowWindow b cur) q := by
  have hw := w.sixteen_le_bytes
  have h0 : lastLane b.prevCar 0 ≤ 100 := by have := lastLane_le hb.small 0; omega
  have h1 : lastLane b.prevCar 1 ≤ 100 := by have := lastLane_le hb.small 1; omega
  obtain ⟨n, hn⟩ : ∃ n, w.bytes = n + 2 := ⟨w.bytes - 2, by omega⟩
  have hfull : utf8Run p (cur.toList.take (n + 2)) = some q := by
    rw [List.take_of_length_le (by simp [hn])]; exact hq
  obtain ⟨q1, hq1, hs1⟩ := run_take_succ cur (by omega) hfull
  obtain ⟨q2, hq2, hs2⟩ := run_take_succ cur (by omega) hq1
  have hc0 : lastLane (slowWindow b cur).prevCar 0 = q.rem + 1 := by
    rw [lastLane_eq _ _ (by omega), slowWindow_prevCar, carried_toNat cur h0 h1 (by omega),
      show w.bytes - 1 - 0 = n + 1 by omega]
    exact scan_car hb cur (by omega) (by omega) hq1 hs1
  have hc1 : lastLane (slowWindow b cur).prevCar 1 = q1.rem + 1 := by
    rw [lastLane_eq _ _ (by omega), slowWindow_prevCar, carried_toNat cur h0 h1 (by omega),
      show w.bytes - 1 - 1 = n by omega]
    exact scan_car hb cur (by omega) (by omega) hq2 hs2
  have hrem := (next_rem hs1).1
  have hst : Utf8State.start.rem = 0 := rfl
  have hq3 := rem_le_three q
  have hq13 := rem_le_three q1
  refine ⟨?_, by omega, ?_, ?_, ?_⟩
  · have hl := (next_rem hs1).2
    rw [lastLane_eq _ _ (by omega)]
    simp only [slowWindow_prevRaw, show w.bytes - 1 - 0 = n + 1 by omega]
    rwa [byteAt_eq cur (by omega)] at hl
  · rw [hc0, hc1]
    unfold CarriesAgree
    rcases hrem with ⟨rfl, -⟩ | ⟨-, hr⟩ <;> omega
  · intro i hi
    rw [slowWindow_prevCar, carried_toNat cur h0 h1 hi]
    obtain ⟨r, hr⟩ : ∃ r, utf8Run p (cur.toList.take i) = some r := by
      have hs := (scan hb cur w.bytes le_rfl).1
      rw [List.take_of_length_le (by simp), hq] at hs
      have := (scan hb cur i (by omega)).1.mpr fun j hj => hs.mp rfl j (by omega)
      exact Option.isSome_iff_exists.mp this
    have hl := ((scan hb cur i (by omega)).2 r hr).1.2
    have := lenOf_le (byteAt cur i)
    unfold CarriesAgree at hl
    unfold carAt
    omega
  · intro i hi
    simp

/-! ### The sentinel compares -/

theorem sentinel_clean_iff (v : Lanes w) (hs : ∀ i, (h : i < w.bytes) → v[i].toNat ≤ 9) :
    anyLane (gtu v (sentinel w)) = false ↔ lastLane v 0 ≤ 1 := by
  have hw := w.sixteen_le_bytes
  rw [anyLane_eq_false, lastLane_eq _ _ (by omega)]
  simp only [gtu_getElem, mask_eq_zero, gtUnsigned, decide_eq_false_iff_not, sentinel_getElem, Nat.not_lt]
  constructor
  · intro h
    simpa using h (w.bytes - 1) (by omega)
  · intro h i hi
    split
    · rename_i he
      subst he
      exact h
    · exact hs i hi

theorem rem_eq_zero {p : Utf8State} : p.rem = 0 ↔ p = .start := by cases p <;> decide

theorem agrees_clean_iff (hb : BlockAgrees b p) :
    anyLane (gtu b.prevCar (sentinel w)) = false ↔ p = .start := by
  rw [sentinel_clean_iff _ hb.small, ← rem_eq_zero]
  have := hb.last
  omega

theorem run_ascii (l : List Byte) (h : ∀ c ∈ l, c.toNat < 0x80) : utf8Run .start l = some .start := by
  induction l with
  | nil => rfl
  | cons c cs ih =>
    have hc : Utf8State.start.next c.toNat = some .start := by
      simp [Utf8State.next, utf8Lead, h c (by simp)]
    simp only [utf8Run, hc]
    exact ih fun d hd => h d (by simp [hd])

theorem next_ascii {p : Utf8State} {c : Nat} (hp : p ≠ .start) (hc : c < 0x80) : p.next c = none := by
  cases p <;> simp [Utf8State.next, utf8Inside] at * <;> omega

/-- One fed window against the decoder: agreement is kept where the decoder reads it, and an error is added exactly where
it does not. -/
theorem windowStep_simulates (hb : BlockAgrees b p) (cur : Lanes w) :
    (∀ q, utf8Run p cur.toList = some q → BlockAgrees (windowStep b cur) q) ∧
      ((windowStep b cur).err = false ↔ b.err = false ∧ (utf8Run p cur.toList).isSome = true) := by
  have hw := w.sixteen_le_bytes
  cases ha : ascii cur with
  | false =>
    rw [windowStep_slow b cur ha]
    refine ⟨fun q hq => slow_agrees hb cur hq, ?_⟩
    simp only [Block.err, slowWindow_hasError, anyLane_orLanes, Bool.or_eq_false_iff, slow_clean_iff hb cur]
  | true =>
    rw [windowStep_fast b cur ha]
    have hall : ∀ c ∈ cur.toList, c.toNat < 0x80 := by
      rw [List.forall_mem_iff_forall_getElem]
      intro i hi
      simpa using (ascii_eq_true cur).mp ha i (by simpa using hi)
    have herr : (fastWindow b).err = false ↔ b.err = false ∧ p = .start := by
      simp only [Block.err, fastWindow_hasError, anyLane_orLanes, Bool.or_eq_false_iff, errAscii, agrees_clean_iff hb]
    by_cases hp : p = .start
    · subst hp
      rw [run_ascii _ hall]
      refine ⟨fun q hq => ?_, by simpa using herr⟩
      cases hq
      exact ⟨hb.leader, hb.last, hb.carries, hb.small, hb.nibbles⟩
    · have hnone : utf8Run p cur.toList = none := by
        cases hl : cur.toList with
        | nil => have := congrArg List.length hl; simp at this; omega
        | cons c cs =>
          simp only [utf8Run, next_ascii hp (hall c (by simp [hl]))]
      rw [hnone]
      refine ⟨by simp, ?_⟩
      rw [herr]
      simp [hp]

end Scan

/-- The reset block agrees with the decoder's start (R33). -/
theorem reset_agrees (w : Width) : BlockAgrees (Block.reset w) .start := by
  have hw := w.sixteen_le_bytes
  have h : ∀ k, lastLane (Vector.replicate w.bytes 0x00#8 : Lanes w) k = 0 := by
    intro k
    rw [lastLane_eq _ _ (by omega)]
    simp
  refine ⟨?_, ?_, ?_, ?_, ?_⟩
  · simp [LeaderAgrees, Block.reset, h]
  · simp [Block.reset, h, Utf8State.rem]
  · simp [CarriesAgree, Block.reset, h, Utf8State.rem]
  · intro i hi
    simp [Block.reset]
  · intro i hi
    simp [Block.reset]

/-- An error stays while windows are fed (R26). -/
theorem feedAll_err {w : Width} (ws : List (Lanes w)) (b : Block w) (h : b.err = true) : (feedAll b ws).err = true := by
  induction ws generalizing b with
  | nil => exact h
  | cons v ws ih =>
    refine ih (windowStep b v) ?_
    unfold windowStep
    split <;> simp_all [Block.err, anyLane_orLanes]

/-- Any number of fed windows against the decoder. -/
theorem feedAll_agrees {w : Width} (ws : List (Lanes w)) (b : Block w) (p : Utf8State) (hb : BlockAgrees b p) :
    (∀ q, utf8Run p (streamOf ws) = some q → BlockAgrees (feedAll b ws) q) ∧
      ((feedAll b ws).err = false ↔ b.err = false ∧ (utf8Run p (streamOf ws)).isSome = true) := by
  induction ws generalizing b p with
  | nil => simp [feedAll, streamOf, utf8Run, hb]
  | cons v ws ih =>
    obtain ⟨h1, h2⟩ := windowStep_simulates hb v
    have hst : streamOf (v :: ws) = v.toList ++ streamOf ws := rfl
    have hf : feedAll b (v :: ws) = feedAll (windowStep b v) ws := rfl
    rw [hst, hf, utf8Run_append]
    cases hr : utf8Run p v.toList with
    | none =>
      rw [hr] at h2
      simp at h2
      simp
      exact feedAll_err ws _ h2
    | some q =>
      obtain ⟨i1, i2⟩ := ih (windowStep b v) q (h1 q hr)
      refine ⟨by simpa using i1, ?_⟩
      rw [i2, h2, hr]; simp

end Sys2Proof.Machine
end

