-- ==== Sys2Proof/Tests/Slice0.lean ====
section
/-! SUPPORT. Tests: words and values written out from the spec (its encodings and spec/95_test_vectors.md, named at each test), and a witness for every statement that has hypotheses. -/

namespace Sys2Proof.Tests

open Sys2Proof.Machine

-- One theorem at a time: kernel evaluations of many theorems at once would each hold a thread.
set_option Elab.async false

/-! ### Helpers -/

/-- The window of W = 16 that starts with the given bytes and goes on with `fill` (95, conventions). -/
def win (first : List Byte) (fill : Byte) : Lanes .w16 :=
  ⟨((first ++ List.replicate 16 fill).take 16).toArray, by simp [Width.bytes]⟩

/-- The window with the given last bytes after bytes 0x41 (95 section 2.3 and on). -/
def winEnding (last : List Byte) : Lanes .w16 := win (List.replicate (16 - last.length) 0x41#8 ++ last) 0x41#8

/-- The machine at W = 16 with the given block, nothing pending. -/
def at16 (b : Block .w16) : State := { width := .w16, block := b, out := Response.none, pending := [] }

/-- The same with one command on the port. -/
def issued (b : Block .w16) (i : Instr) : State := { at16 b with pending := [portOf .w16 i] }

/-- The same with a reset step on the port, a FEED standing on `cmd_op`. -/
def resetting (b : Block .w16) : State :=
  { at16 b with pending := [{ rst := true, cmd := encode .w16 (.feed (win [] 0xFF#8).toList) }] }

/-- Whether an outcome is a next state with the given property. -/
def answers (o : Host.Outcome State Fault Refusal) (p : State → Bool) : Bool :=
  match o with
  | .next t => p t
  | .fault _ => false
  | .refused _ => false

/-- The state after a step. -/
def after (s : State) : State :=
  match step s with
  | .next t => t
  | .fault _ => s
  | .refused _ => s

def clean : Block .w16 := Block.reset .w16

/-- The block after `FEED 41 ×14 E2 82` (95 section 3.4). -/
def midSequence : Block .w16 :=
  { clean with
    prevRaw := winEnding [0xE2#8, 0x82#8]
    prevHi := hiNibbles (winEnding [0xE2#8, 0x82#8])
    prevCar := win (List.replicate 14 1#8 ++ [3#8, 2#8]) 0x00#8 }

/-- The end state of 95 section 3.3: a finished run with ERR = 1. -/
def rejected : Block .w16 := { midSequence with hasError := win (List.replicate 15 0x00#8) 0xFF#8, done := true }

/-- A run that broke the protocol: DONE and ILL. -/
def misused : Block .w16 := { clean with done := true, ill := true }

/-! ### The primitives and the tables (95 sections 2.1 and 2.2) -/

theorem test_saturating_subtract :
    subSat 0x00#8 1#8 = 0x00#8 ∧ subSat 0x01#8 2#8 = 0x00#8 ∧ subSat 0x05#8 2#8 = 0x03#8 ∧
      subSat 0xF5#8 0xF4#8 = 0x01#8 ∧ subSat 0xFF#8 0xF4#8 = 0x0B#8 ∧ subSat 0xF4#8 0xF4#8 = 0x00#8 := by decide

theorem test_wrapping_add :
    addWrap 0xFF#8 0x01#8 = 0x00#8 ∧ addWrap 0x03#8 0x04#8 = 0x07#8 ∧ addWrap 0x80#8 0x80#8 = 0x00#8 := by decide

theorem test_compares :
    gtUnsigned 0x80#8 0x7F#8 = true ∧ gtSigned 0x80#8 0x7F#8 = false ∧ gtSigned 0x7F#8 0x80#8 = true ∧
      gtSigned 0x7F#8 0x7F#8 = false ∧ gtSigned 0xC2#8 0xC1#8 = true ∧ gtSigned 0xC2#8 0xC2#8 = false ∧
      gtSigned 0xA0#8 0x9F#8 = true ∧ gtSigned 0xA0#8 0x41#8 = false := by decide

theorem test_mask_compares :
    eqm (win [0xFF#8, 0x00#8, 0xFF#8] 0x00#8) (win [0xFF#8, 0x00#8, 0x00#8] 0x00#8) =
        win [0xFF#8, 0xFF#8, 0x00#8] 0xFF#8 ∧
      eqLanes (win [0xED#8] 0x00#8) (win [0xED#8] 0x01#8) = win [0xFF#8] 0x00#8 := by decide +kernel

theorem test_extensions : zext 16 0x80#8 = 0x0080#16 ∧ sext 16 0x80#8 = 0xFF80#16 := by decide

theorem test_shifts :
    shift1 (w := .w16)
        #v[0x10#8, 0x11#8, 0x12#8, 0x13#8, 0x14#8, 0x15#8, 0x16#8, 0x17#8,
          0x18#8, 0x19#8, 0x1A#8, 0x1B#8, 0x1C#8, 0x1D#8, 0x1E#8, 0x1F#8] (win [0x20#8, 0x21#8, 0x22#8] 0x23#8) =
        win [0x1F#8, 0x20#8, 0x21#8, 0x22#8] 0x23#8 ∧
      shift2 (w := .w16)
        #v[0x10#8, 0x11#8, 0x12#8, 0x13#8, 0x14#8, 0x15#8, 0x16#8, 0x17#8,
          0x18#8, 0x19#8, 0x1A#8, 0x1B#8, 0x1C#8, 0x1D#8, 0x1E#8, 0x1F#8] (win [0x20#8, 0x21#8, 0x22#8] 0x23#8) =
        win [0x1E#8, 0x1F#8, 0x20#8, 0x21#8, 0x22#8] 0x23#8 := by decide +kernel

theorem test_reductions :
    reduceOr (winEnding [0x7F#8]) = 0x7F#8 ∧ ascii (winEnding [0x7F#8]) = true ∧ anyLane (winEnding [0x7F#8]) = true ∧
      reduceOr (winEnding [0x80#8]) = 0xC1#8 ∧ ascii (winEnding [0x80#8]) = false ∧
      ascii (win [] 0x00#8) = true ∧ anyLane (win [] 0x00#8) = false := by decide +kernel

theorem test_tables :
    [0x7F#8, 0x80#8, 0xBF#8, 0xC0#8, 0xDF#8, 0xE0#8, 0xEF#8, 0xF0#8].map (fun b => entry lenTable (highNibble b)) =
        [1#8, 0#8, 0#8, 2#8, 2#8, 3#8, 3#8, 4#8] ∧
      [0x7F#8, 0xBF#8, 0xC0#8, 0xDF#8, 0xE0#8, 0xF0#8].map (fun b => entry iminTable (highNibble b)) =
        [0x80#8, 0x80#8, 0xC2#8, 0x80#8, 0xE1#8, 0xF1#8] ∧
      [0x7F#8, 0xBF#8, 0xC0#8, 0xDF#8, 0xE0#8, 0xF0#8].map (fun b => entry sminTable (highNibble b)) =
        [0x7F#8, 0x7F#8, 0x7F#8, 0x7F#8, 0xA0#8, 0x90#8] := by decide

/-! ### The continuation decoder and the checks (95 sections 2.3 to 2.5, 2.8) -/

/-- 95 section 2.3, row 4. -/
theorem test_carried_lengths_of_cut_sequences :
    let cur := win [0xC3#8, 0xE2#8, 0x82#8, 0x41#8, 0x80#8, 0x41#8, 0x41#8, 0x41#8] 0x20#8
    let p := win [] 0x00#8
    initLengths cur = win [2#8, 3#8, 0#8, 1#8, 0#8] 1#8 ∧
      (carryOne p (initLengths cur)) = win [0#8, 1#8, 2#8] 0#8 ∧
      (runningSum p (initLengths cur)) = win [2#8, 4#8, 2#8, 1#8, 0#8] 1#8 ∧
      (carryTwo p (runningSum p (initLengths cur))) = win [0#8, 0#8, 0#8, 2#8] 0#8 ∧
      carried cur p = win [2#8, 4#8, 2#8, 3#8, 0#8] 1#8 := by decide +kernel

/-- 95 section 2.3, the boundary rows: `F0 9F` before the window. -/
theorem test_carried_lengths_across_the_boundary :
    carried (win [0x98#8, 0x80#8, 0x41#8, 0x41#8] 0x20#8) (win (List.replicate 14 1#8 ++ [4#8, 3#8]) 0#8) =
      win [4#8] 1#8 := by decide +kernel

/-- 95 sections 2.4 and 2.5: `FE FF` and `ED C0`. -/
theorem test_error_lanes :
    slowError clean (win [0xFE#8, 0xFF#8] 0x20#8) = win [0x0A#8, 0xFF#8, 0xFF#8, 0xFF#8, 0xFF#8] 0x00#8 ∧
      slowError clean (win [0xED#8, 0xC0#8] 0x20#8) = win [0x00#8, 0xFF#8, 0xFF#8, 0xFF#8] 0x00#8 := by decide +kernel

/-- 95 section 2.8 and 3.5: a surrogate cut by the window boundary, lane 0 only. -/
theorem test_surrogate_across_the_boundary :
    slowError (windowStep clean (winEnding [0xED#8])) (win [0xA0#8, 0x80#8] 0x20#8) = win [0xFF#8] 0x00#8 ∧
      slowError (windowStep clean (winEnding [0xED#8])) (win [0x9F#8, 0xBF#8] 0x20#8) = win [] 0x00#8 := by
  decide +kernel

/-! ### Well-formedness -/

theorem test_feed_of_15_bytes_is_ill_formed : ¬ (Instr.feed (List.replicate 15 0x41#8)).WellFormed .w16 := by decide

theorem test_feed_of_17_bytes_is_ill_formed : ¬ (Instr.feed (List.replicate 17 0x41#8)).WellFormed .w16 := by decide

theorem test_feed_of_16_bytes_is_ill_formed_at_32 : ¬ (Instr.feed (List.replicate 16 0x41#8)).WellFormed .w32 := by decide

theorem test_feed_of_16_bytes_is_well_formed : (Instr.feed (List.replicate 16 0x41#8)).WellFormed .w16 := by decide

/-! ### Decoding: words written out from 30_encoding R61 to R63; `cmd_data` is not read in format C -/

theorem test_decode_nop : decode (w := .w16) ⟨0b0000#4, 0xFF#128⟩ = .nop := by decide
theorem test_decode_init : decode (w := .w16) ⟨0b0001#4, 0xFF#128⟩ = .init := by decide
/-- 30_encoding R68. -/
theorem test_decode_feed : decode (w := .w16) ⟨0b0010#4, 0x20202020202020202020202020A9C348#128⟩ =
    .feed [0x48, 0xC3, 0xA9, 0x20, 0x20, 0x20, 0x20, 0x20, 0x20, 0x20, 0x20, 0x20, 0x20, 0x20, 0x20, 0x20] := by
  decide +kernel
theorem test_decode_finish : decode (w := .w16) ⟨0b0011#4, 0xFF#128⟩ = .finish := by decide
theorem test_decode_query : decode (w := .w16) ⟨0b0100#4, 0xFF#128⟩ = .query := by decide
theorem test_decode_op5 : decode (w := .w16) ⟨0b0101#4, 0xFF#128⟩ = .op5 := by decide
theorem test_decode_op6 : decode (w := .w16) ⟨0b0110#4, 0xFF#128⟩ = .op6 := by decide
theorem test_decode_op7 : decode (w := .w16) ⟨0b0111#4, 0xFF#128⟩ = .op7 := by decide
theorem test_decode_op8 : decode (w := .w16) ⟨0b1000#4, 0xFF#128⟩ = .op8 := by decide
theorem test_decode_op9 : decode (w := .w16) ⟨0b1001#4, 0xFF#128⟩ = .op9 := by decide
theorem test_decode_opA : decode (w := .w16) ⟨0b1010#4, 0xFF#128⟩ = .opA := by decide
theorem test_decode_opB : decode (w := .w16) ⟨0b1011#4, 0xFF#128⟩ = .opB := by decide
theorem test_decode_opC : decode (w := .w16) ⟨0b1100#4, 0xFF#128⟩ = .opC := by decide
theorem test_decode_opD : decode (w := .w16) ⟨0b1101#4, 0xFF#128⟩ = .opD := by decide
theorem test_decode_opE : decode (w := .w16) ⟨0b1110#4, 0xFF#128⟩ = .opE := by decide
theorem test_decode_opF : decode (w := .w16) ⟨0b1111#4, 0xFF#128⟩ = .opF := by decide

/-- 95 section 3.7: `cmd_data` at W = 32. -/
theorem test_decode_feed_at_32 :
    decode (w := .w32)
        ⟨0x2#4, 0x20202020202020202020202020202020202020202020202020202020206B6FAC#256⟩ =
      .feed ([0xAC, 0x6F, 0x6B] ++ List.replicate 29 0x20) := by decide +kernel

/-- 30_encoding R68, the other way. -/
theorem test_encode_feed :
    encode .w16 (.feed [0x48, 0xC3, 0xA9, 0x20, 0x20, 0x20, 0x20, 0x20, 0x20, 0x20, 0x20, 0x20, 0x20, 0x20, 0x20, 0x20]) =
      ⟨0x2#4, 0x20202020202020202020202020A9C348#128⟩ := by decide +kernel

theorem test_decode_table_word : decodeTableWord 4 0x3 = some .finish ∧ decodeTableWord 4 0xF = some .opF := by decide

/-! ### One step of each command -/

/-- 42 R150: valid with DONE and ILL set. -/
theorem test_nop_keeps_the_state : answers (exec .nop (at16 misused)) (fun t => t == at16 misused) = true := by
  decide +kernel

/-- 95 section 2.9: INIT after ERR and DONE, then STATUS 0x00. -/
theorem test_init_clears : answers (exec .init (at16 { rejected with ill := true }))
    (fun t => t == at16 clean && t.block.status == 0x00#8) = true := by decide +kernel

/-- 42 R155's example: `prev_car = [1,2,1,…,1]`, ERR = 0, FAST = 0. -/
theorem test_feed_slow : answers (exec (.feed (win [0x48#8, 0xC3#8, 0xA9#8] 0x20#8).toList) (at16 clean))
    (fun t => t.block.prevCar.toList == [1#8, 2#8] ++ List.replicate 14 1#8 && t.block.status == 0x00#8 &&
      t.block.prevRaw.toList.take 3 == [0x48#8, 0xC3#8, 0xA9#8] && t.block.prevHi.toList.take 3 == [4#4, 12#4, 10#4]) =
    true := by decide +kernel

/-- 95 section 3.4: the ASCII window after a cut sequence: lane 15 flagged, `previous` kept, STATUS 0x03. -/
theorem test_feed_fast : answers (exec (.feed (win [0x30#8, 0x31#8] 0x46#8).toList) (at16 midSequence))
    (fun t => t.block.hasError.toList == List.replicate 15 0x00#8 ++ [0xFF#8] && t.block.status == 0x03#8 &&
      t.block.prevCar.toList == midSequence.prevCar.toList) = true := by decide +kernel

/-- 95 section 3.3: the tail check, STATUS 0x05. -/
theorem test_finish_flags_a_cut_sequence : answers (exec .finish (at16 midSequence))
    (fun t => t == at16 rejected && t.block.status == 0x05#8) = true := by decide +kernel

/-- 42 R160: ILL and nothing else. -/
theorem test_finish_twice : answers (exec .finish (at16 rejected))
    (fun t => t == at16 { rejected with ill := true }) = true := by decide +kernel

/-- 95 section 2.9: 0x00 right after reset. -/
theorem test_query_after_reset : answers (exec .query State.reset)
    (fun t => t.ports == { err := false, respValid := true, resp := 0x00#8 }) = true := by decide +kernel

/-- 95 section 2.9: 0x0D after a rejected run and a reserved opcode. -/
theorem test_query_of_a_broken_run : answers (exec .query (at16 { rejected with ill := true }))
    (fun t => t.ports == { err := true, respValid := true, resp := 0x0D#8 }) = true := by decide +kernel

/-- 42 R165: every reserved opcode, ILL and nothing else, DONE set or not; then STATUS 0x08 from the INIT state (95 section
4). -/
theorem test_reserved_opcodes : ∀ i ∈ reservedOpcodes,
    answers (exec i (at16 rejected)) (fun t => t == at16 { rejected with ill := true }) = true ∧
      answers (exec i (at16 clean)) (fun t => t.block.status == 0x08#8) = true := by decide +kernel

/-- 70_reset R230: the command of a reset step is ignored. -/
theorem test_reset_step : answers (step (resetting rejected)) (fun t => t == at16 clean) = true := by decide +kernel

/-- 30_encoding R60: an empty port is NOP, and the next command waits its turn. -/
theorem test_step_takes_the_first_command :
    answers (step { at16 clean with pending := [portOf .w16 .finish, portOf .w16 .query] })
        (fun t => t == { at16 { clean with done := true } with pending := [portOf .w16 .query] }) = true ∧
      answers (step (at16 clean)) (fun t => t == at16 clean) = true := by decide +kernel

/-- 70_reset R240 and 95 section 2.9's responses. -/
theorem test_verdicts :
    verdictOf 0x04#8 = .valid ∧ verdictOf 0x06#8 = .valid ∧ verdictOf 0x05#8 = .invalid ∧ verdictOf 0x0C#8 = .noMeaning ∧
      verdictOf 0x01#8 = .notEnded ∧ verdictOf 0x00#8 = .notEnded := by decide

/-- 93 U9: ERR has no meaning as a verdict when ILL = 1. -/
theorem test_verdict_of_a_broken_run : verdictOf 0x0D#8 = .noMeaning ∧ verdictOf 0x0F#8 = .noMeaning := by decide

/-- 70_reset R240: a QUERY before FINISH and a second one after it give no result (95 section 2.9's `INIT; FINISH; QUERY`). -/
theorem test_results :
    ((at16 clean).issue [.query, .finish, .query, .query]).results = [0x04#8] := by decide +kernel

/-! ### The companions (95 sections 1.8 and 2.11) -/

theorem test_bit_counts :
    trailingZeroCount 0 0b1000#64 = 3#64 ∧ trailingZeroCount 0 0x8000000000000000#64 = 63#64 ∧
      leadingZeroCount 0#64 = 64#64 ∧ leadingZeroCount 0x00FF#64 = 56#64 ∧ leadingZeroCount 1#64 = 63#64 ∧
      clearLowestSetBit 0b1010#64 = 0b1000#64 ∧ clearLowestSetBit 0#64 = 0#64 ∧
      populationCount 0xFF00000000000001#64 = 9#64 := by decide +kernel

theorem test_checked_arithmetic :
    checkedAdd (-1#64) 1#64 = (0#64, true) ∧ checkedAdd 1#64 2#64 = (3#64, false) ∧
      checkedMul 0x100000000#64 0x100000000#64 = (0#64, true) ∧
      checkedMul 0xFFFFFFFF#64 0x100000001#64 = (-1#64, false) := by decide +kernel

theorem test_window_helpers :
    (toBitmask (win [0x80#8, 0x00#8, 0xFF#8, 0x7F#8] 0x00#8)).toNat = 0x0005 ∧
      (equalsByte (win [0x22#8, 0x41#8, 0x22#8, 0x22#8] 0x41#8) 0x22#8).toNat = 0x000D ∧
      (lessOrEqualByte (win [0x20#8, 0x41#8, 0x1F#8, 0x80#8] 0x41#8) 0x20#8).toNat = 0x0005 ∧
      (bitwiseOrByte (win [0x41#8, 0x00#8, 0x7F#8, 0x80#8] 0x00#8) 0x20#8).toList.take 4 =
        [0x61#8, 0x20#8, 0x7F#8, 0xA0#8] := by decide +kernel

/-- 48 R188: one register, one call; several registers in order. -/
theorem test_for_each_lane :
    forEachLane (fun v (l : List (Lanes .w16)) => v :: l) (win [] 1#8) [] = [win [] 1#8] ∧
      forEachRegister (fun v (l : List (Lanes .w16)) => v :: l) [win [] 1#8, win [] 2#8] [] =
        [win [] 2#8, win [] 1#8] := by decide +kernel

/-! ### The host: loads, pseudo-commands, text (20_memory R42, 30_encoding R66, R67) -/

theorem test_window_load :
    loadWindow .w16 (HostMemory.ofBytes 0x1003 (List.replicate 16 0x41#8)) 0x1003 = .ok (List.replicate 16 0x41#8) := by
  rfl

theorem test_window_load_past_the_end_is_refused :
    loadWindow .w16 (HostMemory.ofBytes 0x1000 (List.replicate 15 0x41#8)) 0x1000 = .error (.unreadable 0x100F) := by
  rfl

/-- 95 section 1.7's lengths 0, 16 and 17. -/
theorem test_validate :
    validate .w16 Config.examplePad [] = [.init, .finish, .query] ∧
      validate .w16 Config.examplePad (List.replicate 16 0x41#8) =
        [.init, .feed (List.replicate 16 0x41#8), .finish, .query] ∧
      validate .w16 Config.examplePad (List.replicate 17 0x41#8) =
        [.init, .feed (List.replicate 16 0x41#8), .feed (0x41#8 :: List.replicate 15 0x20#8), .finish, .query] := by
  decide +kernel

theorem test_assemble_lines :
    assemble .w16 Config.examplePad (['I', 'N', 'I', 'T', ' ', ';', ' ', 'n', 'e', 'w', '\n', '.', 'o', 'p', ' ', '0', 'x', 'A',
        '\n', ';', '\n', 'Q', 'U', 'E', 'R', 'Y']) = some [.init, .opA, .query] := by decide +kernel

theorem test_assemble_feed :
    assembleLine .w16 Config.examplePad (['F', 'E', 'E', 'D'] ++ (List.replicate 15 [' ', '4', '1']).flatten ++ [' ', 'C', '3']) =
        some [.feed (List.replicate 15 0x41#8 ++ [0xC3#8])] ∧
      assembleLine .w16 Config.examplePad (['F', 'E', 'E', 'D'] ++ (List.replicate 15 [' ', '4', '1']).flatten) = none := by
  decide +kernel

theorem test_assemble_pseudo :
    assembleLine .w16 Config.examplePad ['F', 'E', 'E', 'D', 'P', 'A', 'D', ' ', 'C', '3', ' ', 'A', '9'] =
        some [.feed ([0xC3#8, 0xA9#8] ++ List.replicate 14 0x20#8)] ∧
      assembleLine .w16 Config.examplePad ['F', 'E', 'E', 'D', 'P', 'A', 'D'] = none ∧
      assembleLine .w16 Config.examplePad ['V', 'A', 'L', 'I', 'D', 'A', 'T', 'E'] = some [.init, .finish, .query] := by
  decide +kernel

/-- Mnemonics are upper case; a raw command is in format C. -/
theorem test_assemble_refuses :
    assembleLine .w16 Config.examplePad ['n', 'o', 'p'] = none ∧ assembleLine .w16 Config.examplePad ['N', 'O', 'P', ' ', '0', '0'] = none ∧
      assembleLine .w16 Config.examplePad ['.', 'o', 'p', ' ', '0', 'x', '2'] = none := by decide +kernel

/-- 93 G1's table: `C3 A9 41` is well formed. -/
theorem test_grammar : WellFormedUtf8 [0xC3#8, 0xA9#8, 0x41#8] :=
  .cons (.two (by decide) (by decide)) (.cons (.ascii (by decide)) .nil)

/-! ### Witnesses: for every statement with hypotheses, a state and operands that meet them, at the values where its clauses
meet -/

/-- A state with an error, DONE and ILL set, which NOP leaves as it is: the premises of the second half. -/
theorem witness_InitGivesTheZeroStateAndAloneClears :
    Instr.nop ≠ .init ∧
      exec .nop (at16 { rejected with ill := true }) =
        .next { at16 { rejected with ill := true } with block := { rejected with ill := true }, out := Response.none } ∧
      rejected.hasError[15].getLsbD 7 = true ∧ rejected.done = true := by
  exact ⟨by decide, rfl, by decide +kernel, rfl⟩

theorem witness_FeedOfAnAsciiWindowComparesTheSentinel :
    midSequence.done = false ∧ ∀ i, (h : i < Width.bytes .w16) → (win [] 0x7F#8)[i].toNat < 0x80 := by decide +kernel

/-- The sentinel's two clauses at their boundaries: 9 and 10 in lane 14, 1 and 2 in lane 15. -/
theorem witness_sentinel_boundaries :
    errAscii (win (List.replicate 14 9#8 ++ [9#8, 1#8]) 0#8) = win [] 0x00#8 ∧
      errAscii (win (List.replicate 14 9#8 ++ [10#8, 2#8]) 0#8) =
        win (List.replicate 14 0x00#8 ++ [0xFF#8, 0xFF#8]) 0x00#8 := by decide +kernel

theorem witness_FeedOfAnotherWindowRunsTheChecks :
    clean.done = false ∧ ∃ i, ∃ h : i < Width.bytes .w16, 0x80 ≤ (winEnding [0x80#8])[i].toNat := by
  exact ⟨rfl, 15, by decide, by decide +kernel⟩

theorem witness_FeedAfterFinishSetsOnlyIll : (at16 rejected).block.done = true := rfl

theorem witness_FeedWithoutWBytesIsRefused :
    (List.replicate 15 0x41#8).length ≠ (at16 clean).width.bytes ∧
      (List.replicate 17 0x41#8).length ≠ (at16 clean).width.bytes := by decide

theorem witness_FinishRunsTheTailCheck : (at16 midSequence).block.done = false := rfl

theorem witness_FinishAfterFinishSetsOnlyIll : (at16 misused).block.done = true := rfl

theorem witness_ReservedOpcodesSetOnlyIll : Instr.op5 ∈ reservedOpcodes ∧ Instr.opF ∈ reservedOpcodes := by decide

theorem witness_EveryCommandAndStepCompletes :
    (Instr.feed (win [] 0xFF#8).toList).WellFormed (at16 rejected).width ∧ Instr.opF.WellFormed .w64 := by
  decide +kernel

/-- Both ends of every range of 41 R115's table, in lanes 0 to 9. -/
theorem witness_InitialLengthByByteClass :
    (9 < Width.bytes .w16) ∧
      (initLengths (win [0x00#8, 0x7F#8, 0x80#8, 0xBF#8, 0xC0#8, 0xDF#8, 0xE0#8, 0xEF#8, 0xF0#8, 0xFF#8] 0x20#8)).toList.map
          BitVec.toNat = [1, 1, 0, 0, 2, 2, 3, 3, 4, 4, 1, 1, 1, 1, 1, 1] := by decide +kernel

/-- The vectors of the premises and the lanes 0, 1 and 2 where the clauses meet. -/
theorem witness_ContinuationDecoderPerLane : ∃ cur p r1 sum r2 : Lanes .w16,
    r1 = carryOne p (initLengths cur) ∧ sum = runningSum p (initLengths cur) ∧ r2 = carryTwo p sum ∧
      2 < Width.bytes .w16 ∧ r1[0] = 2#8 ∧ r2[0] = 2#8 ∧ r2[1] = 1#8 ∧ r2[2] = 0#8 ∧ (carried cur p)[0] = 4#8 :=
  ⟨win [0x98#8, 0x80#8, 0x42#8] 0x20#8, win (List.replicate 14 1#8 ++ [4#8, 3#8]) 0#8, _, _, _, rfl, rfl, rfl,
    by decide +kernel⟩

/-- A leader, an ASCII byte and a continuation byte, each consistent and each in error. -/
theorem witness_LengthCheckPerLane :
    (5 < Width.bytes .w16) ∧ errLen (win [2#8, 1#8, 1#8, 3#8, 2#8, 0#8] 1#8) (win [2#8, 1#8, 0#8, 2#8, 1#8, 0#8] 1#8) =
      win [0x00#8, 0x00#8, 0x00#8, 0xFF#8, 0xFF#8, 0xFF#8] 0x00#8 := by decide +kernel

theorem witness_CeilingCheckPerLane :
    (2 < Width.bytes .w16) ∧ errCeil (win [0xF4#8, 0xF5#8, 0xFF#8] 0x20#8) = win [0x00#8, 0x01#8, 0x0B#8] 0x00#8 := by
  decide +kernel

/-- Lane 0 reads the previous window's last byte, lane 1 the byte before it. -/
theorem witness_SecondByteBoundsPerLane : ∃ (prevRaw cur : Lanes .w16) (back : Byte),
    back = (if (0 : Nat) = 0 then prevRaw[15] else cur[0]) ∧ back = 0xED#8 ∧
      errMax2 (off1 prevRaw cur) cur = win [0xFF#8, 0x00#8, 0x00#8, 0x00#8, 0xFF#8] 0x00#8 :=
  ⟨winEnding [0xED#8], win [0xA0#8, 0xED#8, 0x9F#8, 0xF4#8, 0x90#8, 0xF4#8, 0x8F#8] 0x20#8, _, rfl, by decide +kernel⟩

theorem witness_OverlongCheckPerLane : ∃ (back cur : Lanes .w16) (backHi : Nibbles .w16) (imin smin : Byte),
    imin = (if backHi[1] = 0xC#4 then 0xC2#8 else if backHi[1] = 0xE#4 then 0xE1#8
      else if backHi[1] = 0xF#4 then 0xF1#8 else 0x80#8) ∧
    smin = (if backHi[1] = 0xE#4 then 0xA0#8 else if backHi[1] = 0xF#4 then 0x90#8 else 0x7F#8) ∧
    imin = 0xE1#8 ∧ smin = 0xA0#8 ∧ (errOver back backHi cur)[1] = 0xFF#8 :=
  ⟨win [0x20#8, 0xE0#8] 0x20#8, win [0xE0#8, 0x9F#8] 0x20#8, hiNibbles (win [0x20#8, 0xE0#8] 0x20#8), _, _, rfl, rfl,
    by decide +kernel⟩

/-- Stored nibbles that agree, and the boundary bytes of each clause across the window boundary. -/
theorem witness_OverlongCheckByByteValues :
    midSequence.HiAgrees ∧ (windowStep clean (winEnding [0xE0#8])).HiAgrees ∧
      ([(0xC1#8, 0x7E#8), (0xC1#8, 0x7F#8), (0xC2#8, 0x80#8), (0xE0#8, 0x7F#8), (0xE0#8, 0x80#8), (0xE0#8, 0x9F#8),
        (0xE0#8, 0xA0#8), (0xF0#8, 0x80#8), (0xF0#8, 0x8F#8), (0xF0#8, 0x90#8)].map fun p =>
          let b := windowStep clean (winEnding [p.1])
          let cur := win [p.2] 0x20#8
          decide ((errOver (off1 b.prevRaw cur) (off1Hi b.prevHi (hiNibbles cur)) cur)[0] = 0x00#8)) =
        [false, true, true, true, false, false, true, false, false, true] := by decide +kernel

/-- Lane 15 at 2, and lane 14 at 10 with lane 15 at 1. -/
theorem witness_AsciiWindowRaisesErrAfterACutSequence :
    (at16 midSequence).block.done = false ∧ (at16 midSequence).ports.err = false ∧
      (∀ i, (h : i < Width.bytes .w16) → (win [] 0x7F#8)[i].toNat < 0x80) ∧
      answers (exec (.feed (win [] 0x7F#8).toList) (at16 midSequence)) (fun t => t.ports.err) = true ∧
      answers (exec (.feed (win [] 0x7F#8).toList)
        (at16 { clean with prevCar := win (List.replicate 14 9#8 ++ [10#8, 1#8]) 0#8 })) (fun t => t.ports.err) = true ∧
      answers (exec (.feed (win [] 0x7F#8).toList)
        (at16 { clean with prevCar := win (List.replicate 14 9#8 ++ [9#8, 1#8]) 0#8 })) (fun t => !t.ports.err) = true := by
  decide +kernel

/-- Every lane at its bound (10_state R24). -/
theorem witness_CarriedLengthsNeverWrap :
    ({ clean with prevCar := win [25#8, 17#8, 20#8] 12#8 } : Block .w16).CarBounded ∧
      (carried (win [0xFF#8] 0xFF#8) (win [25#8, 17#8, 20#8] 12#8))[0] = 25#8 := by decide +kernel

theorem witness_LengthComparesHaveOneSignedness :
    ({ clean with prevCar := win [25#8, 17#8, 20#8] 12#8 } : Block .w16).CarBounded := by decide +kernel

theorem witness_WindowPrimitivesPerLane :
    15 < Width.bytes .w16 ∧ 31 < Width.bytes .w32 ∧ 63 < Width.bytes .w64 := by decide

theorem witness_OnlyQueryResponds :
    exec .query (at16 rejected) = .next (after (issued rejected .query)) ∧
      step (issued rejected .query) = .next (after (issued rejected .query)) ∧
      (issued rejected .query).performs = some .query ∧ (issued rejected .nop).performs = some .nop := by
  exact ⟨rfl, rfl, by decide +kernel⟩

theorem witness_StepPerformsTheDecodedCommand :
    (at16 clean).pending = [] ∧ (issued clean .query).pending = portOf .w16 .query :: [] ∧
      (portOf .w16 .query).rst = false := ⟨rfl, rfl, rfl⟩

theorem witness_ResetStepOverridesTheCommand :
    ∃ p rest, (resetting rejected).pending = p :: rest ∧ p.rst = true := ⟨_, _, rfl, rfl⟩

/-- A slow-path FEED, a fast-path FEED and a FEED after FINISH. -/
theorem witness_OnlySlowFeedsWritePrevious :
    let s := issued clean (.feed (winEnding [0x80#8]).toList)
    let u := issued midSequence (.feed (winEnding [0x7F#8]).toList)
    let v := issued rejected (.feed (winEnding [0x80#8]).toList)
    step s = .next (after s) ∧ step u = .next (after u) ∧ step v = .next (after v) ∧ s.performs ≠ none ∧
      s.performs ≠ some .init ∧ s.performs = some (.feed (winEnding [0x80#8]).toList) ∧ s.block.done = false ∧
      (∃ c ∈ (winEnding [0x80#8]).toList, 0x80 ≤ c.toNat) ∧
      u.performs = some (.feed (winEnding [0x7F#8]).toList) ∧ (∀ c ∈ (winEnding [0x7F#8]).toList, c.toNat < 0x80) ∧
      v.block.done = true := by
  exact ⟨rfl, rfl, rfl, by decide +kernel⟩

/-- Each clause's premises: reset, INIT, a command with a lane set, a finished run. -/
theorem witness_AccumulatorIsMonotonic :
    step (resetting rejected) = .next (after (resetting rejected)) ∧ (resetting rejected).performs = none ∧
      (issued rejected .init).performs = some .init ∧
      step (issued rejected .finish) = .next (after (issued rejected .finish)) ∧
      (issued rejected .finish).performs = some .finish ∧ rejected.done = true ∧
      (rejected.hasError.toList.getD 15 0x00#8).getLsbD 0 = true := by
  exact ⟨rfl, by decide +kernel, by decide +kernel, rfl, by decide +kernel⟩

theorem witness_FastTellsTheLastAcceptedFeedsPath :
    let s := issued clean (.feed (winEnding [0x7F#8]).toList)
    step s = .next (after s) ∧ s.performs = some (.feed (winEnding [0x7F#8]).toList) ∧ s.block.done = false ∧
      (resetting rejected).performs = none ∧ (issued rejected .finish).performs = some .finish ∧
      rejected.done = true := by
  exact ⟨rfl, by decide +kernel⟩

theorem witness_DoneIsSetByFinishAlone :
    let s := issued rejected (.feed (winEnding [0x80#8]).toList)
    step s = .next (after s) ∧ s.block.done = true ∧ s.performs = some (.feed (winEnding [0x80#8]).toList) ∧
      (issued rejected .finish).performs = some .finish := by
  exact ⟨rfl, by decide +kernel⟩

theorem witness_IllHasThreeCauses :
    step (issued rejected .op7) = .next (after (issued rejected .op7)) ∧
      (issued rejected .op7).performs = some .op7 ∧ Instr.op7 ∈ reservedOpcodes ∧
      (issued rejected .finish).performs = some .finish ∧ rejected.done = true ∧
      (issued clean .finish).performs = some .finish ∧ clean.done = false := by
  exact ⟨rfl, by decide +kernel⟩

theorem witness_OnlyInitAndResetClearErr :
    step (issued rejected .init) = .next (after (issued rejected .init)) ∧ (issued rejected .init).ports.err = true ∧
      (after (issued rejected .init)).ports.err = false ∧
      step (resetting rejected) = .next (after (resetting rejected)) ∧ (resetting rejected).ports.err = true ∧
      (after (resetting rejected)).ports.err = false := by
  exact ⟨rfl, by decide +kernel, by decide +kernel, rfl, by decide +kernel⟩

theorem witness_AFinishedRunKeepsItsVerdict :
    let s := issued rejected (.feed (winEnding [0x80#8]).toList)
    step s = .next (after s) ∧ s.block.done = true ∧ s.performs ≠ none ∧ s.performs ≠ some .init := by
  exact ⟨rfl, by decide +kernel⟩

/-- The four verdicts. -/
theorem witness_QueryResponseIsTheVerdict :
    exec .query (at16 rejected) = .next (after (issued rejected .query)) ∧
      answers (exec .query (at16 rejected)) (fun t => verdictOf t.out.value == .invalid) = true ∧
      answers (exec .query (at16 { clean with done := true })) (fun t => verdictOf t.out.value == .valid) = true ∧
      answers (exec .query (at16 misused)) (fun t => verdictOf t.out.value == .noMeaning) = true ∧
      answers (exec .query (at16 midSequence)) (fun t => verdictOf t.out.value == .notEnded) = true := by
  exact ⟨rfl, by decide +kernel⟩

theorem witness_OpcodeMap : 0 < Width.bytes .w16 ∧ 63 < Width.bytes .w64 := by decide

theorem witness_DecodeOfEncodeIsTheCommand :
    (Instr.feed (win [0xFF#8] 0x00#8).toList).WellFormed .w16 ∧ Instr.op5.WellFormed .w64 := by decide +kernel

theorem witness_EncodeOfDecodeKeepsTheOpcodeAndAFeedsWord : (Command.ofTableWord .w16 132 0xFF2).op = 0x2#4 := by decide +kernel

theorem witness_AssemblingTheTextGivesTheCommand :
    (Instr.feed (win [0xFF#8] 0x0A#8).toList).WellFormed .w16 ∧ Instr.query.WellFormed .w16 := by decide +kernel

theorem witness_EveryStepKeepsTheNibblesAndTheCarryBounds :
    let s := issued midSequence (.feed (win [0xAC#8] 0x41#8).toList)
    s.block.Inv ∧ step s = .next (after s) := by
  exact ⟨by decide +kernel, rfl⟩

theorem witness_ResetHasTheInvariant : 15 < Width.bytes .w16 := by decide

theorem witness_AsciiStreamsStayOnTheFastPathAndAreAccepted :
    (∀ v ∈ [win [] 0x7F#8, win [] 0x00#8], ∀ i, (h : i < Width.bytes .w16) → v[i].toNat < 0x80) ∧
      [win [] 0x7F#8, win [] 0x00#8] ≠ [] := by decide +kernel

/-- The largest pad byte the statement admits, and nothing pending in a state with everything set. -/
theorem witness_ValidateRunDecidesUtf8 : (0x7F#8).toNat < 0x80 ∧ (at16 misused).pending = [] := by decide +kernel

/-- A readable window at an odd address, and one whose last byte is missing. -/
theorem witness_WindowLoadReadsWBytesOrIsRefused :
    loadWindow .w16 (HostMemory.ofBytes 0x1003 (List.replicate 16 0x41#8)) 0x1003 = .ok (List.replicate 16 0x41#8) ∧
      15 < Width.bytes .w16 ∧ (HostMemory.ofBytes 0x1000 (List.replicate 15 0x41#8)).byteAt (0x1000 + 15) = none :=
  ⟨rfl, by decide, rfl⟩

/-- A buffer of 17 bytes with its last window filled and more than a whole window readable behind it. -/
theorem witness_RunLoadedFromABufferIsValidate :
    let bytes := List.replicate 17 0x41#8
    windowCount .w16 bytes.length * Width.bytes .w16 = 32 ∧
      ∀ i, i < 32 →
        (HostMemory.ofBytes 0x1000 (bytes ++ List.replicate 15 0x20#8 ++ List.replicate 17 0xFF#8)).byteAt (0x1000 + i) =
          (bytes ++ List.replicate 15 0x20#8)[i]? := by decide +kernel

theorem witness_EveryInitStartsARunWithItsOwnResult :
    (at16 rejected).pending = [] ∧
      ∀ i ∈ [Instr.query] ++ [.finish, .query], i.WellFormed (at16 rejected).width := by decide +kernel

/-- Both clauses: a finished and an unfinished run, a further QUERY behind. -/
theorem witness_ARunEndsAtItsFirstQueryWithDone :
    (at16 clean).pending = [] ∧ (∀ i ∈ [Instr.finish] ++ [.query], i.WellFormed (at16 clean).width) ∧
      (∀ i ∈ [Instr.query], i ≠ .init) ∧ ((at16 clean).issue [.finish]).results = [] ∧
      Host.Core.run Sys2Proof.core 1 ((at16 clean).issue [.finish]) = .next (after ((at16 clean).issue [.finish])) ∧
      (after ((at16 clean).issue [.finish])).block.done = true ∧ ((at16 clean).issue []).results = [] ∧
      Host.Core.run Sys2Proof.core 0 ((at16 clean).issue []) = .next (at16 clean) ∧ (at16 clean).block.done = false := by
  exact ⟨rfl, by decide +kernel, by decide +kernel, by decide +kernel, rfl, by decide +kernel, rfl, rfl, rfl⟩

theorem witness_StreamWindowsHoldTheStreamAndPads :
    (win [] 0x41#8).toList ∈ streamWindows .w16 Config.examplePad (List.replicate 16 0x41#8) := by decide +kernel

theorem witness_AStepOfOneBlockLeavesTheOthers :
    ([at16 clean, at16 rejected] : Bank)[1]? = some (at16 rejected) ∧ 0 ≠ 1 := ⟨rfl, by decide⟩

theorem witness_BitOpsCountAndCheck : 0x8000000000000000#64 ≠ 0#64 := by decide

theorem witness_WindowHelpersPerLane : 15 < Width.bytes .w16 ∧ 63 < Width.bytes .w64 := by decide

end Sys2Proof.Tests
end

/-! The state's rules (10_state): what a step does to the block, the carried lengths' bounds, and the proofs about them. -/

namespace Sys2Proof.Machine

/-! ### What one step does -/

/-- R60: what the decoder takes from the bus is a command at the machine's width. -/
theorem performs_wellFormed {s : State} {i : Instr} (h : s.performs = some i) : i.WellFormed s.width := by
  cases hp : s.pending with
  | nil =>
    obtain rfl : Instr.nop = i := by simpa [State.performs, hp] using h
    rfl
  | cons p rest =>
    cases hr : p.rst with
    | true => simp [State.performs, hp, hr] at h
    | false =>
      obtain rfl : decode p.cmd = i := by simpa [State.performs, hp, hr] using h
      exact decode_wellFormed p.cmd

/-- The step as one equation: the block and the response ports follow from what is performed (`none` is reset, R230), and
one port value is taken. -/
theorem step_eq (s : State) :
    step s = .next { s with
      block := s.performs.elim (Block.reset s.width) (blockAfter · s.block)
      out := s.performs.elim Response.none (responseOf · s.block)
      pending := s.pending.tail } := by
  cases hp : s.pending with
  | nil =>
    rw [step_idle s hp, exec_wellFormed .nop s rfl]
    simp [State.performs, hp, blockAfter, responseOf]
  | cons p rest =>
    cases hr : p.rst with
    | true =>
      rw [step_reset s p rest hp hr]
      simp [State.performs, hp, hr]
    | false =>
      rw [step_command s p rest hp hr, exec_wellFormed _ { s with pending := rest } (decode_wellFormed p.cmd)]
      simp [State.performs, hp, hr]

/-- Everything a step can do to the block, by what it performs (`none` is reset). -/
inductive BlockStep {w : Width} (b : Block w) : Option Instr → Block w → Prop where
  /-- INIT or reset (R33, R151, R230). -/
  | clear {p : Option Instr} (hp : p = none ∨ p = some .init) : BlockStep b p (Block.reset w)
  /-- NOP or QUERY (R150, R162). -/
  | keep {i : Instr} (hi : i = .nop ∨ i = .query) : BlockStep b (some i) b
  /-- An accepted FEED of an ASCII window (R154). -/
  | fast (cur : Lanes w) (hd : b.done = false) (ha : ascii cur = true) :
    BlockStep b (some (.feed cur.toList)) (fastWindow b)
  /-- An accepted FEED of another window (R155). -/
  | slow (cur : Lanes w) (hd : b.done = false) (ha : ascii cur = false) :
    BlockStep b (some (.feed cur.toList)) (slowWindow b cur)
  /-- An accepted FINISH (R159). -/
  | tail (hd : b.done = false) : BlockStep b (some .finish) (tailCheck b)
  /-- A reserved opcode (R165). -/
  | reserved {i : Instr} (hi : i ∈ reservedOpcodes) : BlockStep b (some i) b.violate
  /-- FEED or FINISH of a finished run (R157, R160). -/
  | late {i : Instr} (hd : b.done = true) (hi : i = .finish ∨ ∃ cur : Lanes w, i = .feed cur.toList) :
    BlockStep b (some i) b.violate

/-- A command's effect on the block is one of the cases of `BlockStep`. -/
theorem blockStep_blockAfter {w : Width} {i : Instr} (b : Block w) (h : i.WellFormed w) :
    BlockStep b (some i) (blockAfter i b) := by
  obtain ⟨hb, hi⟩ | ⟨hb, rfl⟩ | ⟨cur, hb, rfl, hd, ha⟩ | ⟨cur, hb, rfl, hd, ha⟩ | ⟨hb, rfl, hd⟩ | ⟨hb, hi | ⟨hd, hi⟩⟩ :=
    blockAfter_cases (b := b) h <;> rw [hb]
  · exact .keep hi
  · exact .clear (.inr rfl)
  · exact .fast cur hd ha
  · exact .slow cur hd ha
  · exact .tail hd
  · exact .reserved hi
  · exact .late hd hi

/-- The inversion of `step`: the next state in full, its block by the cases of `BlockStep`. -/
theorem step_next {s t : State} (h : step s = .next t) :
    ∃ b : Block s.width, BlockStep s.block s.performs b ∧
      t = { s with block := b, out := s.performs.elim Response.none (responseOf · s.block),
                   pending := s.pending.tail } := by
  rw [step_eq] at h
  refine ⟨_, ?_, (Host.Outcome.next.inj h).symm⟩
  cases hp : s.performs with
  | none => exact .clear (.inl rfl)
  | some i => exact blockStep_blockAfter s.block (performs_wellFormed hp)

/-- R64: what a reserved opcode is not. -/
theorem reserved_ne {i : Instr} (h : i ∈ reservedOpcodes) : i ≠ .init ∧ i ≠ .finish ∧ ∀ cur, i ≠ .feed cur := by
  simp only [reservedOpcodes, List.mem_cons, List.not_mem_nil, or_false] at h
  obtain rfl | rfl | rfl | rfl | rfl | rfl | rfl | rfl | rfl | rfl | rfl := h <;> simp

/-! ### The carried lengths' bounds (R24) -/

section Carry
variable {w : Width} {b : Block w}

/-- The two lanes of `prev_car` that the next window reads are at most 12. -/
theorem Block.CarBounded.lastLane_le (hb : b.CarBounded) {k : Nat} (hk : k ≤ 1) : lastLane b.prevCar k ≤ 12 := by
  have hw := w.sixteen_le_bytes
  rw [lastLane_eq _ _ (by omega)]
  have := hb (w.bytes - 1 - k) (by omega)
  rwa [carBound, if_neg (by omega), if_neg (by omega), if_neg (by omega)] at this

@[simp] theorem carBound_zero : carBound 0 = 25 := rfl
@[simp] theorem carBound_one : carBound 1 = 17 := rfl
@[simp] theorem carBound_two : carBound 2 = 20 := rfl
@[simp] theorem carBound_add_three (i : Nat) : carBound (i + 3) = 12 := by simp [carBound]

/-- R24's derivation, lane by lane: lanes 0 to 2 read the previous window's carries, later lanes the window's own only. -/
theorem carAt_le (h0 : lastLane b.prevCar 0 ≤ 12) (h1 : lastLane b.prevCar 1 ≤ 12) (cur : Lanes w) (i : Nat) :
    carAt b cur i ≤ carBound i := by
  have hlen (j : Nat) : lenOf (byteAt cur j) ≤ 4 := lenOf_le _
  match i with
  | 0 =>
    have := hlen 0
    simp only [carAt, oneAt, twoAt, carBound_zero]
    omega
  | 1 =>
    have := hlen 0
    have := hlen 1
    simp only [carAt, oneAt, twoAt, carBound_one]
    omega
  | 2 =>
    have := hlen 0
    have := hlen 1
    have := hlen 2
    simp only [carAt, oneAt, twoAt, carBound_two]
    omega
  | j + 3 =>
    have := hlen j
    have := hlen (j + 1)
    have := hlen (j + 2)
    have := hlen (j + 3)
    simp only [carAt, oneAt, twoAt, carBound_add_three]
    omega

theorem carBound_le (i : Nat) : carBound i ≤ 25 := by
  unfold carBound
  split_ifs <;> omega

/-- R118: from bounded carried lengths the new ones are the recurrence, with no add wrapping. -/
theorem Block.CarBounded.carried_toNat (hb : b.CarBounded) (cur : Lanes w) {i : Nat} (h : i < w.bytes) :
    (carried cur b.prevCar)[i].toNat = carAt b cur i :=
  Machine.carried_toNat cur ((hb.lastLane_le (by omega)).trans (by omega)) ((hb.lastLane_le (by omega)).trans (by omega)) h

theorem Block.CarBounded.carried_le (hb : b.CarBounded) (cur : Lanes w) {i : Nat} (h : i < w.bytes) :
    (carried cur b.prevCar)[i].toNat ≤ carBound i := by
  rw [hb.carried_toNat cur h]
  exact carAt_le (hb.lastLane_le (by omega)) (hb.lastLane_le (by omega)) cur i

/-! ### The invariant (R23, R24) -/

theorem block_reset_inv (w : Width) : (Block.reset w).Inv := by
  constructor <;> intro i hi <;> simp [Block.reset]

/-- A slow-path window replaces `previous` by one that keeps both rules. -/
theorem slowWindow_inv (hb : b.CarBounded) (cur : Lanes w) : (slowWindow b cur).Inv := by
  constructor <;> intro i hi
  · simp
  · exact hb.carried_le cur hi

theorem BlockStep.inv {p : Option Instr} {b' : Block w} (h : BlockStep b p b') (hb : b.Inv) : b'.Inv := by
  cases h with
  | clear => exact block_reset_inv w
  | slow cur => exact slowWindow_inv hb.2 cur
  | keep | fast | tail | reserved | late => exact hb

end Carry

/-! ### Who writes `previous`, the accumulator, FAST and DONE (R22, R26, R30, R31) -/

section Frame
variable {w : Width} {b b' : Block w} {p : Option Instr}

theorem ascii_eq_false_iff (cur : Lanes w) : ascii cur = false ↔ ∃ c ∈ cur.toList, 0x80 ≤ c.toNat := by
  rw [← Bool.not_eq_true, ascii_iff_forall_mem]
  simp only [not_forall, Nat.not_lt, exists_prop]

/-- R153: an accepted FEED is one `window_step` on its window. -/
theorem BlockStep.eq_windowStep {l : List Byte} (h : BlockStep b (some (.feed l)) b') (hd : b.done = false) :
    ∃ cur : Lanes w, cur.toList = l ∧ b' = windowStep b cur := by
  cases h with
  | clear hc => simp at hc
  | keep hi => simp at hi
  | fast cur _ ha => exact ⟨cur, rfl, (windowStep_fast b cur ha).symm⟩
  | slow cur _ ha => exact ⟨cur, rfl, (windowStep_slow b cur ha).symm⟩
  | reserved hi => exact absurd rfl ((reserved_ne hi).2.2 l)
  | late hl => rw [hd] at hl; cases hl

/-- R22: `previous` is kept by everything but INIT, reset and slow-path FEEDs. -/
theorem BlockStep.previous_kept (h : BlockStep b p b') (hr : p ≠ none) (hi : p ≠ some .init)
    (hs : ¬ ∃ cur : Lanes w, p = some (.feed cur.toList) ∧ b.done = false ∧ ascii cur = false) :
    b'.prevRaw = b.prevRaw ∧ b'.prevHi = b.prevHi ∧ b'.prevCar = b.prevCar := by
  cases h with
  | clear hc => exact absurd hc (by simp [hr, hi])
  | slow cur hd ha => exact absurd ⟨cur, rfl, hd, ha⟩ hs
  | keep | fast | tail | reserved | late => exact ⟨rfl, rfl, rfl⟩

/-- R26: everything but INIT and reset writes the accumulator by ORing into it, if at all. -/
theorem BlockStep.hasError_eq_or (h : BlockStep b p b') (hr : p ≠ none) (hi : p ≠ some .init) :
    b'.hasError = b.hasError ∨ ∃ e, b'.hasError = orLanes b.hasError e := by
  cases h with
  | clear hc => exact absurd hc (by simp [hr, hi])
  | keep | reserved | late => exact .inl rfl
  | fast | slow | tail => exact .inr ⟨_, rfl⟩

/-- R26: only FEED and FINISH of an unfinished run, INIT and reset write the accumulator. -/
theorem BlockStep.hasError_kept (h : BlockStep b p b') (hr : p ≠ none) (hi : p ≠ some .init)
    (hk : b.done = true ∨ ∀ cur, p ≠ some .finish ∧ p ≠ some (.feed cur)) : b'.hasError = b.hasError := by
  cases h with
  | clear hc => exact absurd hc (by simp [hr, hi])
  | keep | reserved | late => rfl
  | fast cur hd | slow cur hd => simp [hd] at hk
  | tail hd => simp [hd] at hk

/-- Bits set in the accumulator stay set when a vector is ORed in, lane by lane over the list of lanes. -/
theorem orLanes_keeps_bit (u e : Lanes w) (k j : Nat) (h : (u.toList.getD k 0x00#8).getLsbD j = true) :
    ((orLanes u e).toList.getD k 0x00#8).getLsbD j = true := by
  by_cases hk : k < w.bytes
  · simp only [List.getD, Vector.length_toList, hk, List.getElem?_eq_getElem, Vector.getElem_toList, Option.getD_some,
      orLanes_getElem, BitVec.getLsbD_or, Bool.or_eq_true] at h ⊢
    exact .inl h
  · simp [List.getD, hk] at h

/-- R30: FAST is kept by everything but INIT, reset and accepted FEEDs. -/
theorem BlockStep.fast_kept {i : Instr} (h : BlockStep b (some i) b') (hi : i ≠ .init)
    (hk : b.done = true ∨ ∀ cur, i ≠ .feed cur) : b'.fast = b.fast := by
  cases h with
  | clear hc => simp [hi] at hc
  | fast cur hd | slow cur hd => simp [hd] at hk
  | keep | tail | reserved | late => rfl

/-- R30: an accepted FEED's path is told by FAST. -/
theorem windowStep_fast_eq (b : Block w) (cur : Lanes w) : (windowStep b cur).fast = ascii cur := by
  cases ha : ascii cur with
  | true => rw [windowStep_fast b cur ha, fastWindow_fast]
  | false => rw [windowStep_slow b cur ha, slowWindow_fast]

/-- INIT and reset give the block of R33. -/
theorem BlockStep.eq_reset (h : BlockStep b p b') (hc : p = none ∨ p = some .init) : b' = Block.reset w := by
  cases h with
  | clear => rfl
  | keep hi => rcases hi with rfl | rfl <;> simp at hc
  | fast | slow | tail => simp at hc
  | reserved hi => simp [(reserved_ne hi).1] at hc
  | late _ hi => rcases hi with rfl | ⟨cur, rfl⟩ <;> simp at hc

/-- R31: DONE after a step. -/
theorem BlockStep.done_iff (h : BlockStep b p b') :
    b'.done = true ↔ ∃ i, p = some i ∧ i ≠ .init ∧ (b.done = true ∨ i = .finish) := by
  cases h with
  | clear hc => rcases hc with rfl | rfl <;> simp
  | keep hi => rcases hi with rfl | rfl <;> simp
  | fast | slow | tail => simp
  | reserved hi => simp [(reserved_ne hi).1, (reserved_ne hi).2.1]
  | late hd hi => rcases hi with rfl | ⟨cur, rfl⟩ <;> simp [hd]

/-- R157, R160: FEED and FINISH of a finished run only set ILL. -/
theorem BlockStep.eq_violate (h : BlockStep b p b') (hd : b.done = true)
    (hp : p = some .finish ∨ ∃ cur, p = some (.feed cur)) : b' = b.violate := by
  cases h with
  | clear hc => rcases hc with rfl | rfl <;> simp at hp
  | keep hi => rcases hi with rfl | rfl <;> simp at hp
  | fast _ ho | slow _ ho | tail ho => rw [hd] at ho; cases ho
  | reserved | late => rfl

end Frame

/-! ### ASCII runs from reset (R30, R111, R112) -/

section Ascii
variable {w : Width}

/-- The reset block with FAST as given: all that ASCII windows make of it. -/
def resetWithFast (w : Width) (f : Bool) : Block w := { Block.reset w with fast := f }

/-- R111: carried lengths that are all zero exceed the sentinel nowhere. -/
theorem gtu_zero_sentinel (w : Width) :
    gtu (Vector.replicate w.bytes 0x00#8) (sentinel w) = Vector.replicate w.bytes 0x00#8 := by
  ext i hi
  simp [gtUnsigned]

@[simp] theorem resetWithFast_false (w : Width) : resetWithFast w false = Block.reset w := rfl

theorem resetWithFast_or_sentinel (w : Width) (f : Bool) :
    orLanes (resetWithFast w f).hasError (gtu (resetWithFast w f).prevCar (sentinel w)) = (Block.reset w).hasError := by
  ext i hi
  simp [resetWithFast, Block.reset, gtu_zero_sentinel]

/-- R112: an ASCII window leaves the reset block as it is, but for FAST. -/
theorem fastWindow_resetWithFast (w : Width) (f : Bool) : fastWindow (resetWithFast w f) = resetWithFast w true :=
  congrArg (fun e => { Block.reset w with hasError := e, fast := true }) (resetWithFast_or_sentinel w f)

theorem feedAll_ascii (windows : List (Lanes w)) (h : ∀ v ∈ windows, ascii v = true) (f : Bool) :
    feedAll (resetWithFast w f) windows = resetWithFast w (f || !windows.isEmpty) := by
  induction windows generalizing f with
  | nil => simp [feedAll]
  | cons v vs ih =>
    have hv : windowStep (resetWithFast w f) v = resetWithFast w true := by
      rw [windowStep_fast _ v (h v (by simp)), fastWindow_resetWithFast]
    calc feedAll (resetWithFast w f) (v :: vs)
      _ = feedAll (resetWithFast w true) vs := by simp only [feedAll, List.foldl_cons, hv]
      _ = resetWithFast w (f || !(v :: vs).isEmpty) := by simp [ih fun u hu => h u (by simp [hu])]

theorem block_reset_err (w : Width) : (Block.reset w).err = false := by
  rw [Block.err, anyLane_eq_false]
  intro i hi
  simp [Block.reset]

/-- R129: no error before the tail check and none after it. -/
theorem resetWithFast_err (w : Width) (f : Bool) :
    (resetWithFast w f).err = false ∧ (tailCheck (resetWithFast w f)).err = false := by
  have h : (tailCheck (resetWithFast w f)).hasError = (Block.reset w).hasError := resetWithFast_or_sentinel w f
  exact ⟨block_reset_err w, by rw [Block.err, h]; exact block_reset_err w⟩

end Ascii

/-! ### The obligations -/

/-- Settles O43: reset has the invariant, slow-path windows build it anew, and nothing else writes `previous`. -/
theorem everyStepKeepsTheNibblesAndTheCarryBounds : Obligations.EveryStepKeepsTheNibblesAndTheCarryBounds := by
  intro s t hinv h
  obtain ⟨b, hb, rfl⟩ := step_next h
  exact hb.inv hinv

/-- Settles O20: under the bounds every add of step c is the recurrence's, which `carBound` bounds. -/
theorem carriedLengthsNeverWrap : Obligations.CarriedLengthsNeverWrap := by
  intro w b cur hb i hi
  have h0 : lastLane b.prevCar 0 ≤ 100 := (hb.lastLane_le (by omega)).trans (by omega)
  refine ⟨?_, (hb.carried_le cur hi).trans (carBound_le i)⟩
  rw [hb.carried_toNat cur hi, initLengths_toNat cur hi, carryOne_toNat b cur hi, carryTwo_toNat cur h0 hi, carAt,
    byteAt_eq cur hi]

/-- Settles O28: an accepted FEED that is not ASCII is the slow path; every other case keeps `previous`. -/
theorem onlySlowFeedsWritePrevious : Obligations.OnlySlowFeedsWritePrevious := by
  intro s t h hr hi
  obtain ⟨b, hb, rfl⟩ := step_next h
  constructor
  · intro cur hp hd hc
    rw [hp] at hb
    obtain ⟨v, hv, rfl⟩ := hb.eq_windowStep hd
    obtain rfl := Vector.toList_inj.mp hv
    rw [windowStep_slow _ _ ((ascii_eq_false_iff v).mpr hc)]
    refine ⟨rfl, ?_, rfl⟩
    simp [hiNibbles, laneMap]
  · intro hs
    simp only [← ascii_eq_false_iff] at hs
    obtain ⟨hraw, hhi, hcar⟩ := hb.previous_kept hr hi hs
    exact ⟨congrArg _ hraw, congrArg _ hhi, congrArg _ hcar⟩

/-- Settles O29: INIT and reset zero the accumulator, everything else ORs into it or leaves it. -/
theorem accumulatorIsMonotonic : Obligations.AccumulatorIsMonotonic := by
  intro s t h
  obtain ⟨b, hb, rfl⟩ := step_next h
  constructor
  · intro hc e he
    obtain rfl := hb.eq_reset hc
    exact Vector.eq_of_mem_replicate (Vector.mem_toList_iff.mp he)
  · intro hr hi
    refine ⟨fun k j hbit => ?_, fun hk => congrArg _ (hb.hasError_kept hr hi hk)⟩
    obtain heq | ⟨e, heq⟩ := hb.hasError_eq_or hr hi
    · simpa only [heq] using hbit
    · simpa only [heq] using orLanes_keeps_bit _ e k j hbit

/-- Settles O30: FAST by what the step performs. -/
theorem fastTellsTheLastAcceptedFeedsPath : Obligations.FastTellsTheLastAcceptedFeedsPath := by
  intro s t h
  obtain ⟨b, hb, rfl⟩ := step_next h
  refine ⟨fun hc => ?_, fun cur hp hd => ?_, fun i hp hi hk => ?_⟩
  · obtain rfl := hb.eq_reset hc
    rfl
  · rw [hp] at hb
    obtain ⟨v, rfl, rfl⟩ := hb.eq_windowStep hd
    rw [← ascii_iff_forall_mem, ← windowStep_fast_eq s.block v]
  · rw [hp] at hb
    exact hb.fast_kept hi hk

/-- Settles O31: DONE by what the step performs, and the whole next state of a FEED or FINISH of a finished run. -/
theorem doneIsSetByFinishAlone : Obligations.DoneIsSetByFinishAlone := by
  intro s t h
  obtain ⟨b, hb, rfl⟩ := step_next h
  refine ⟨hb.done_iff, fun hd hp => ?_⟩
  obtain rfl := hb.eq_violate hd hp
  obtain hp | ⟨cur, hp⟩ := hp <;> simp [hp, responseOf, Response.none, Block.violate]

/-- Settles O45: ASCII windows leave the reset block as it is, but for FAST. -/
theorem asciiStreamsStayOnTheFastPathAndAreAccepted : Obligations.AsciiStreamsStayOnTheFastPathAndAreAccepted := by
  intro w windows h
  have hfed : feedAll (Block.reset w) windows = resetWithFast w (!windows.isEmpty) := by
    simpa using feedAll_ascii windows (fun v hv => (ascii_eq_true v).mpr (h v hv)) false
  rw [hfed]
  obtain ⟨herr, htail⟩ := resetWithFast_err w (!windows.isEmpty)
  exact ⟨herr, htail, fun hne => by simp [resetWithFast, hne]⟩

/-- Settles O24: ERR is `any` of the accumulator, and STATUS has it in bit 0. -/
theorem errIsSomeNonzeroLane : Obligations.ErrIsSomeNonzeroLane := by
  intro s
  refine ⟨anyLane_eq_true s.block.hasError, ?_⟩
  simp only [Block.status, State.ports, BitVec.getLsbD_setWidth, BitVec.getLsbD_append]
  simp

/-- Settles O44: the reset block has the invariant at every width. -/
theorem resetHasTheInvariant : Obligations.ResetHasTheInvariant :=
  ⟨block_reset_inv _, block_reset_inv⟩

end Sys2Proof.Machine

/-! The memory rules (20_memory): the response ports, window loads and the run of a buffer, several blocks. -/

namespace Sys2Proof.Machine

/-! ### The response ports (R47) -/

/-- R47, R162: QUERY alone responds, and since it leaves the block as it was, what it responds is STATUS after it. -/
theorem responseOf_eq {w : Width} (i : Instr) (b : Block w) :
    responseOf i b = if i = .query then Response.some (blockAfter i b).status else Response.none := by
  cases i with
  | query => rfl
  | _ => rfl

/-! ### Windows loaded from a buffer (R42, R234) -/

/-- Byte j of a list filled up with `n` pads, wherever the list ends. -/
theorem getElem?_append_pads (bytes : List Byte) (pad : Byte) {n j : Nat} (hj : j < bytes.length + n) :
    (bytes ++ List.replicate n pad)[j]? = some (bytes.getD j pad) := by
  by_cases h : j < bytes.length
  · simp [h, List.getElem?_append_left]
  · simp [h, Nat.le_of_not_lt h, List.getElem?_append_right, show j - bytes.length < n by omega]

/-- R67: byte i of window k is byte `k * W + i` of the stream, or a pad past the stream's end. -/
theorem streamWindow_getElem? (w : Width) (pad : Byte) (bytes : List Byte) (k : Nat) {i : Nat} (hi : i < w.bytes) :
    (streamWindow w pad bytes k)[i]? = some (bytes.getD (k * w.bytes + i) pad) := by
  rw [streamWindow, padded, getElem?_append_pads _ _ (by omega)]
  simp [List.getD_eq_getElem?_getD, hi]

/-- R42(c): the FEEDs of consecutive windows that can all be loaded. -/
theorem feedsFrom_ok {w : Width} {m : HostMemory} {n base : Nat} {window : Nat → List Byte}
    (h : ∀ k, k < n → loadWindow w m (base + k * w.bytes) = .ok (window k)) :
    feedsFrom w m base n = .ok (((List.range n).map window).map .feed) := by
  induction n generalizing base window with
  | zero => rfl
  | succ n ih =>
    have hfirst : loadWindow w m base = .ok (window 0) := by simpa using h 0 (by omega)
    have hrest : feedsFrom w m (base + w.bytes) n = .ok (((List.range n).map fun k => window (k + 1)).map .feed) :=
      ih fun k hk => by
        rw [← h (k + 1) (by omega)]
        congr 1
        ring
    simp only [feedsFrom, hfirst, hrest, List.range_succ_eq_map, List.map_cons, List.map_map]
    rfl

/-! ### Several blocks (R53) -/

/-- R53: a step of block k replaces that block in the list by what its own step answers. -/
theorem stepOf_eq_set {bank : Bank} {k : Nat} {s t : State} (hk : bank[k]? = some s) (h : step s = .next t) :
    stepOf bank k = .next (bank.set k t) := by
  simp only [stepOf, hk, h]

/-! ### The obligations -/

/-- Settles O49: a read's result, and the first unreadable byte where it is refused. -/
theorem windowLoadReadsWBytesOrIsRefused : Obligations.WindowLoadReadsWBytesOrIsRefused := by
  intro w m base
  refine ⟨memRead_ok_iff m base w.bytes, ?_, ?_⟩
  · rintro ⟨i, hi, hnone⟩
    obtain ⟨bytes, hok⟩ | ⟨j, -, -, herr⟩ := memRead_cases m base w.bytes
    · obtain ⟨hlen, hread⟩ := (memRead_ok_iff m base w.bytes bytes).mp hok
      have hlate : w.bytes ≤ i := by simpa [hlen, hnone] using (hread i hi).symm
      omega
    · exact ⟨base + j, herr⟩
  · rintro ⟨a, herr⟩
    obtain ⟨bytes, hok⟩ | ⟨j, hj, hnone, -⟩ := memRead_cases m base w.bytes
    · rw [loadWindow, hok] at herr
      cases herr
    · exact ⟨j, hj, hnone⟩

/-- Settles O51: the memory holds window k of the padded stream at its place, so each load gives that window. -/
theorem runLoadedFromABufferIsValidate : Obligations.RunLoadedFromABufferIsValidate := by
  intro w m pad bytes start hmem
  have hload : ∀ k, k < windowCount w bytes.length →
      loadWindow w m (start + k * w.bytes) = .ok (streamWindow w pad bytes k) := by
    intro k hk
    refine (memRead_ok_iff m _ _ _).mpr ⟨streamWindow_length w pad bytes k, fun i hi => ?_⟩
    have hinside : k * w.bytes + i < windowCount w bytes.length * w.bytes := by
      calc k * w.bytes + i < (k + 1) * w.bytes := by rw [Nat.succ_mul]; omega
        _ ≤ windowCount w bytes.length * w.bytes := Nat.mul_le_mul_right _ hk
    rw [Nat.add_assoc, hmem _ hinside, streamWindow_getElem? w pad bytes k hi]
    exact getElem?_append_pads bytes pad (by omega)
  rw [runOfBuffer, feedsFrom_ok hload]
  rfl

/-- Settles O25: the ports of a command by `responseOf_eq`, and a step's by what it performs; a reset step has none. -/
theorem onlyQueryResponds : Obligations.OnlyQueryResponds := by
  constructor
  · intro i s t h
    obtain ⟨-, rfl⟩ := exec_next h
    by_cases hq : i = .query <;> simp [State.ports, responseOf_eq, hq]
  · intro s t h
    obtain rfl := Host.Outcome.next.inj ((step_eq s).symm.trans h)
    cases hp : s.performs with
    | none => simp [State.ports]
    | some i => by_cases hq : i = .query <;> simp [State.ports, responseOf_eq, hq]

/-- Settles O52: the block's own step always answers, and the list changes at its place alone. -/
theorem aStepOfOneBlockLeavesTheOthers : Obligations.AStepOfOneBlockLeavesTheOthers := by
  intro bank k s hk
  obtain ⟨hlt, -⟩ := List.getElem?_eq_some_iff.mp hk
  have hstep := step_eq s
  exact ⟨_, _, hstep, stepOf_eq_set hk hstep, List.length_set, List.getElem?_set_self hlt,
    fun j hj => List.getElem?_set_ne hj.symm⟩

end Sys2Proof.Machine

/-! The encoding rules (30_encoding): the decoder against the encoder and the assembler, a stream's windows, and the
run of VALIDATE. -/

namespace Sys2Proof.Machine

/-! ### The decoder and the encoder (R61 to R63) -/

/-- R66: the one condition on a term. -/
@[simp] theorem feed_wellFormed_iff {w : Width} {cur : List Byte} :
    (Instr.feed cur).WellFormed w ↔ cur.length = w.bytes := by
  simp [Instr.WellFormed, Instr.wellFormed]

/-- R62, R63: FEED's window is read back off the bus, and each other command has an opcode of its own. -/
theorem decode_encode {w : Width} {i : Instr} (h : i.WellFormed w) : decode (encode w i) = i := by
  cases i with
  | feed cur =>
    calc decode (encode w (.feed cur))
      _ = .feed (lanes w (bus w cur)).toList := decode_feed _
      _ = .feed cur := by rw [lanes_bus w cur (feed_wellFormed_iff.mp h)]
  | _ => rfl

/-! ### The windows of a stream (R67, R234) -/

/-- Consecutive slices of `size` elements, joined, are the list's beginning. -/
theorem flatten_slices {α : Type} (l : List α) (size n : Nat) :
    ((List.range n).map fun k => (l.drop (k * size)).take size).flatten = l.take (n * size) := by
  induction n with
  | zero => simp
  | succ n ih => simp [List.range_succ, ih, Nat.succ_mul, List.take_add]

/-- R67: where the padded stream reaches to the end of window k, that window is its slice. -/
theorem streamWindow_eq_slice {w : Width} {bytes : List Byte} {k n : Nat} (pad : Byte)
    (hk : k * w.bytes + w.bytes ≤ bytes.length + n) :
    streamWindow w pad bytes k = ((bytes ++ List.replicate n pad).drop (k * w.bytes)).take w.bytes := by
  apply List.ext_getElem?
  intro i
  by_cases hi : i < w.bytes
  · rw [streamWindow_getElem? w pad bytes k hi, List.getElem?_take_of_lt hi, List.getElem?_drop,
      getElem?_append_pads bytes pad (by omega)]
  · rw [List.getElem?_eq_none (by rw [streamWindow_length]; omega),
      List.getElem?_eq_none (by rw [List.length_take]; omega)]

/-- R234: every window ends inside the padded stream, so joined they are the stream and then pad bytes. -/
theorem streamWindows_flatten (w : Width) (pad : Byte) (bytes : List Byte) :
    (streamWindows w pad bytes).flatten =
      bytes ++ List.replicate (windowCount w bytes.length * w.bytes - bytes.length) pad := by
  obtain ⟨henough, -⟩ := windowCount_bounds w bytes.length
  have hslices : streamWindows w pad bytes = (List.range (windowCount w bytes.length)).map fun k =>
      ((bytes ++ List.replicate (windowCount w bytes.length * w.bytes - bytes.length) pad).drop (k * w.bytes)).take
        w.bytes := by
    refine List.map_congr_left fun k hk => streamWindow_eq_slice pad ?_
    have : (k + 1) * w.bytes ≤ windowCount w bytes.length * w.bytes :=
      Nat.mul_le_mul_right _ (List.mem_range.mp hk)
    rw [Nat.succ_mul] at this
    omega
  rw [hslices, flatten_slices, List.take_of_length_le (by simp; omega)]

/-- The windows of a stream as lane vectors. -/
def streamLanes (w : Width) (pad : Byte) (bytes : List Byte) : List (Lanes w) :=
  (List.range (windowCount w bytes.length)).map fun k =>
    windowOf (streamWindow w pad bytes k) (streamWindow_length w pad bytes k)

theorem streamLanes_map_toList (w : Width) (pad : Byte) (bytes : List Byte) :
    (streamLanes w pad bytes).map Vector.toList = streamWindows w pad bytes := by
  simp [streamLanes, streamWindows, Function.comp_def]

theorem streamOf_streamLanes (w : Width) (pad : Byte) (bytes : List Byte) :
    streamOf (streamLanes w pad bytes) =
      bytes ++ List.replicate (windowCount w bytes.length * w.bytes - bytes.length) pad := by
  rw [streamOf, List.flatMap_def, streamLanes_map_toList, streamWindows_flatten]

/-! ### Acceptance against the reference grammar (93 G1) -/

/-- R128, R129: a stream fed from reset is accepted exactly when it is well-formed. -/
theorem tailCheck_feedAll_err_iff {w : Width} (windows : List (Lanes w)) :
    (tailCheck (feedAll (Block.reset w) windows)).err = false ↔ WellFormedUtf8 (streamOf windows) := by
  obtain ⟨hagrees, herr⟩ := feedAll_agrees windows (Block.reset w) .start (reset_agrees w)
  have htail : (tailCheck (feedAll (Block.reset w) windows)).err = false ↔
      (feedAll (Block.reset w) windows).err = false ∧
        anyLane (gtu (feedAll (Block.reset w) windows).prevCar (sentinel w)) = false := by
    simp only [Block.err, tailCheck_hasError, anyLane_orLanes, Bool.or_eq_false_iff, errTail]
  rw [htail, herr, ← utf8Run_accepts_iff]
  cases hrun : utf8Run .start (streamOf windows) with
  | none => simp
  | some q => simp [block_reset_err, agrees_clean_iff (hagrees q hrun)]

/-- Pad bytes below 0x80 are read where a character may begin, and nowhere else. -/
theorem utf8Run_pads {pad : Byte} (hpad : pad.toNat < 0x80) (p : Utf8State) (n : Nat) :
    utf8Run p (List.replicate n pad) = some .start ↔ p = .start := by
  by_cases hp : p = .start
  · subst hp
    simp [run_ascii (List.replicate n pad) fun c hc => List.eq_of_mem_replicate hc ▸ hpad]
  · cases n with
    | zero => simp [utf8Run]
    | succ n => simp [List.replicate_succ, utf8Run, next_ascii hp hpad, hp]

/-- R238: padding keeps well-formedness, and hides no sequence cut short. -/
theorem wellFormedUtf8_append_pads {pad : Byte} (hpad : pad.toNat < 0x80) (bytes : List Byte) (n : Nat) :
    WellFormedUtf8 (bytes ++ List.replicate n pad) ↔ WellFormedUtf8 bytes := by
  rw [← utf8Run_accepts_iff, ← utf8Run_accepts_iff, utf8Run_append]
  cases utf8Run .start bytes with
  | none => simp
  | some q => simp [utf8Run_pads hpad]

/-! ### Verdicts (R240) -/

/-- R28: the flags in STATUS, bit by bit. -/
theorem status_bits {w : Width} (b : Block w) :
    b.status.getLsbD 0 = b.err ∧ b.status.getLsbD 1 = b.fast ∧ b.status.getLsbD 2 = b.done ∧
      b.status.getLsbD 3 = b.ill := by
  simp only [Block.status, BitVec.getLsbD_setWidth, BitVec.getLsbD_append]
  simp

/-- R240: the verdict that STATUS carries, by the flags. -/
theorem verdictOf_status {w : Width} (b : Block w) :
    verdictOf b.status =
      if b.done = false then .notEnded else if b.ill = true then .noMeaning
      else if b.err = true then .invalid else .valid := by
  obtain ⟨herr, -, hdone, hill⟩ := status_bits b
  rw [verdictOf, herr, hdone, hill]

/-! ### The run of VALIDATE (R67, R233) -/

@[simp] theorem windowStep_done {w : Width} (b : Block w) (cur : Lanes w) : (windowStep b cur).done = b.done := by
  unfold windowStep
  split <;> rfl

@[simp] theorem windowStep_ill {w : Width} (b : Block w) (cur : Lanes w) : (windowStep b cur).ill = b.ill := by
  unfold windowStep
  split <;> rfl

theorem feedAll_done {w : Width} (windows : List (Lanes w)) (b : Block w) : (feedAll b windows).done = b.done := by
  induction windows generalizing b with
  | nil => rfl
  | cons v vs ih => exact (ih (windowStep b v)).trans (windowStep_done b v)

theorem feedAll_ill {w : Width} (windows : List (Lanes w)) (b : Block w) : (feedAll b windows).ill = b.ill := by
  induction windows generalizing b with
  | nil => rfl
  | cons v vs ih => exact (ih (windowStep b v)).trans (windowStep_ill b v)

/-- R154, R155: in an unfinished run FEED is one `window_step`. -/
theorem blockAfter_feed {w : Width} {b : Block w} (hd : b.done = false) (cur : Lanes w) :
    blockAfter (.feed cur.toList) b = windowStep b cur := by
  simp [blockAfter, feedWindow_open b cur hd]

/-- R41: the FEEDs of an unfinished run, in order. -/
theorem blockAfter_feeds {w : Width} (windows : List (Lanes w)) {b : Block w} (hd : b.done = false) :
    ((windows.map Vector.toList).map Instr.feed).foldl (fun b i => blockAfter i b) b = feedAll b windows := by
  induction windows generalizing b with
  | nil => rfl
  | cons v vs ih =>
    simp only [List.map_cons, List.foldl_cons, blockAfter_feed hd]
    exact ih ((windowStep_done b v).trans hd)

/-- The commands of VALIDATE before its QUERY. -/
def validateBody (w : Width) (pad : Byte) (bytes : List Byte) : List Instr :=
  .init :: (streamWindows w pad bytes).map .feed ++ [.finish]

theorem validate_eq (w : Width) (pad : Byte) (bytes : List Byte) :
    validate w pad bytes = validateBody w pad bytes ++ [.query] := by
  simp [validate, validateBody]

/-- R67: what VALIDATE is made of. -/
theorem mem_validateBody {w : Width} {pad : Byte} {bytes : List Byte} {i : Instr} (h : i ∈ validateBody w pad bytes) :
    i = .init ∨ (∃ k, i = .feed (streamWindow w pad bytes k)) ∨ i = .finish := by
  simp only [validateBody, streamWindows, List.map_map, List.cons_append, List.mem_cons, List.mem_append, List.mem_map,
    List.not_mem_nil, or_false] at h
  obtain h | ⟨k, -, h⟩ | h := h
  · exact .inl h
  · exact .inr (.inl ⟨k, h.symm⟩)
  · exact .inr (.inr h)

theorem wellFormed_of_mem_validateBody {w : Width} {pad : Byte} {bytes : List Byte} :
    ∀ i ∈ validateBody w pad bytes, i.WellFormed w := by
  intro i hi
  obtain rfl | ⟨k, rfl⟩ | rfl := mem_validateBody hi
  · rfl
  · exact feed_wellFormed_iff.mpr (streamWindow_length w pad bytes k)
  · rfl

theorem ne_query_of_mem_validateBody {w : Width} {pad : Byte} {bytes : List Byte} :
    ∀ i ∈ validateBody w pad bytes, i ≠ .query := by
  intro i hi
  obtain rfl | ⟨k, rfl⟩ | rfl := mem_validateBody hi <;> simp

/-- The block VALIDATE queries: the stream's windows fed from reset, and the tail check run. -/
def validated (w : Width) (pad : Byte) (bytes : List Byte) : Block w :=
  tailCheck (feedAll (Block.reset w) (streamLanes w pad bytes))

theorem validated_done (w : Width) (pad : Byte) (bytes : List Byte) : (validated w pad bytes).done = true := rfl

theorem validated_ill (w : Width) (pad : Byte) (bytes : List Byte) : (validated w pad bytes).ill = false :=
  feedAll_ill _ _

/-- R238: with pads below 0x80 the padded stream is accepted exactly when the string is well-formed. -/
theorem validated_err_iff (w : Width) {pad : Byte} (hpad : pad.toNat < 0x80) (bytes : List Byte) :
    (validated w pad bytes).err = false ↔ WellFormedUtf8 bytes := by
  rw [validated, tailCheck_feedAll_err_iff, streamOf_streamLanes, wellFormedUtf8_append_pads hpad]

/-- R233, R234: whatever the block held, this is what VALIDATE makes of it before its QUERY. -/
theorem blockAfter_validateBody {w : Width} (pad : Byte) (bytes : List Byte) (b : Block w) :
    (validateBody w pad bytes).foldl (fun b i => blockAfter i b) b = validated w pad bytes := by
  calc (validateBody w pad bytes).foldl (fun b i => blockAfter i b) b
    _ = finishRun (((streamWindows w pad bytes).map .feed).foldl (fun b i => blockAfter i b) (Block.reset w)) := by
      rw [validateBody, List.foldl_append]
      rfl
    _ = finishRun (feedAll (Block.reset w) (streamLanes w pad bytes)) := by
      rw [← streamLanes_map_toList, blockAfter_feeds _ rfl]
    _ = validated w pad bytes := finishRun_open _ (feedAll_done _ _)

/-- R240: a program without a QUERY has no result. -/
theorem programResults_of_no_query {w : Width} (ended : Bool) (b : Block w) (p : List Instr) (h : ∀ i ∈ p, i ≠ .query) :
    programResults ended b p = [] := by
  induction p generalizing ended b with
  | nil => rfl
  | cons i p ih =>
    have hi : (i == Instr.query) = false := by simpa using h i (by simp)
    simp [programResults, hi, ih _ _ fun j hj => h j (by simp [hj])]

/-- R240: a program without a QUERY that leaves DONE set has its one result at the QUERY behind it. -/
theorem programResults_query {w : Width} {b b' : Block w} {p : List Instr} (hq : ∀ i ∈ p, i ≠ .query)
    (hb : p.foldl (fun b i => blockAfter i b) b = b') (hdone : b'.done = true) :
    programResults false b (p ++ [.query]) = [b'.status] := by
  have hnone := programResults_of_no_query false b p hq
  obtain ⟨e, happend, hfalse⟩ := programResults_append false b p
  obtain rfl := hfalse hnone rfl
  rw [happend, hnone, hb]
  simp [programResults, hdone]

/-- R162: a program and a QUERY behind it run to their end, and the last response is STATUS of the block the program
leaves. -/
theorem run_issue_query {w : Width} {b b' : Block w} (o : Response) {p : List Instr}
    (hp : ∀ i ∈ p, i.WellFormed w) (hb : p.foldl (fun b i => blockAfter i b) b = b') :
    Host.Core.run Sys2Proof.core (p ++ [Instr.query]).length (State.issue ⟨w, b, o, []⟩ (p ++ [.query])) =
      .next ⟨w, b', Response.some b'.status, []⟩ := by
  obtain ⟨o', hrun⟩ := run_program w p (fun i hi => decode_encode (hp i hi)) b o [portOf w .query]
  rw [hb] at hrun
  have hissue : State.issue ⟨w, b, o, []⟩ (p ++ [.query]) = ⟨w, b, o, p.map (portOf w) ++ [portOf w .query]⟩ := by
    simp [State.issue]
  have hquery : step ⟨w, b', o', [portOf w .query]⟩ = .next ⟨w, b', Response.some b'.status, []⟩ :=
    step_issued w .query rfl b' o' []
  rw [hissue, List.length_append]
  exact (core_run_append Sys2Proof.core p.length 1 _ _ hrun).trans (core_run_next Sys2Proof.core 0 _ _ hquery)

/-- R240: of a program without a QUERY that ends a run, that STATUS is the one result. -/
theorem results_issue_query {w : Width} {b b' : Block w} (o : Response) {p : List Instr}
    (hp : ∀ i ∈ p, i.WellFormed w) (hq : ∀ i ∈ p, i ≠ .query)
    (hb : p.foldl (fun b i => blockAfter i b) b = b') (hdone : b'.done = true) :
    (State.issue ⟨w, b, o, []⟩ (p ++ [.query])).results = [b'.status] := by
  have hpq : ∀ i ∈ p ++ [Instr.query], decode (encode w i) = i := by
    simp only [List.mem_append, List.mem_singleton]
    rintro i (hi | rfl)
    · exact decode_encode (hp i hi)
    · rfl
  calc (State.issue ⟨w, b, o, []⟩ (p ++ [.query])).results
    _ = resultsOf (p ++ [Instr.query]).length false ⟨w, b, o, (p ++ [Instr.query]).map (portOf w)⟩ := by
      simp [State.results, State.issue]
    _ = programResults false b (p ++ [.query]) := resultsOf_issued w _ hpq false b o
    _ = [b'.status] := programResults_query hq hb hdone

/-- R67, R233, R240: the machine's run of VALIDATE ends with nothing pending, and its one result is the response its last
step leaves at the ports. -/
theorem run_validate (s : State) (pad : Byte) (bytes : List Byte) (hs : s.pending = []) :
    ∃ t : State, Host.Core.run Sys2Proof.core (validate s.width pad bytes).length (s.issue (validate s.width pad bytes)) =
        .next t ∧ t.pending = [] ∧ t.out = Response.some (validated s.width pad bytes).status ∧
      (s.issue (validate s.width pad bytes)).results = [t.out.value] := by
  obtain ⟨w, b, o, pending⟩ := s
  obtain rfl : pending = [] := hs
  have hblock := blockAfter_validateBody pad bytes b
  have hrun := run_issue_query o wellFormed_of_mem_validateBody hblock
  have hresults := results_issue_query o wellFormed_of_mem_validateBody ne_query_of_mem_validateBody hblock
    (validated_done w pad bytes)
  rw [← validate_eq] at hrun hresults
  exact ⟨_, hrun, rfl, rfl, hresults⟩

/-! ### The assembler (R66) -/

/-- R66: the tokens of a FEED's text are the mnemonic and its bytes. -/
theorem tokens_feed (cur : List Byte) :
    tokens (['F', 'E', 'E', 'D'] ++ cur.flatMap fun b => ' ' :: byteChars b) =
      ['F', 'E', 'E', 'D'] :: cur.map byteChars := by
  simp only [List.cons_append, List.nil_append]
  rw [tokens_char rfl, tokens_char rfl, tokens_char rfl, tokens_char rfl, goesOn_bytes, tokens_bytes]
  rfl

/-- R66: a FEED's text is read as that FEED. -/
theorem assembleLine_feed {w : Width} (pad : Byte) {cur : List Byte} (h : cur.length = w.bytes) :
    assembleLine w pad (textOf (.feed cur)) = some [.feed cur] := by
  rw [assembleLine, textOf, dropComment_bytes _ cur (by simp), tokens_feed]
  simp [assembleTokens, hexBytes_byteChars, h]

/-! ### The obligations -/

/-- Settles O40: `decode_encode`, over the 16 commands. -/
theorem decodeOfEncodeIsTheCommand : Obligations.DecodeOfEncodeIsTheCommand := fun _ _ => decode_encode

/-- Settles O41: the decoder's term has the word's opcode, and a window read off the bus is driven as the same bus value. -/
theorem encodeOfDecodeKeepsTheOpcodeAndAFeedsWord : Obligations.EncodeOfDecodeKeepsTheOpcodeAndAFeedsWord := by
  intro w c
  refine ⟨decode_wellFormed c, decode_opcode c, fun hop => ?_⟩
  obtain ⟨op, data⟩ := c
  obtain rfl : op = 0x2#4 := hop
  rw [decode_feed]
  exact congrArg (Command.mk 0x2#4) (bus_lanes w data)

/-- Settles O42: a FEED's text by its tokens; the text of each other command is one fixed line. -/
theorem assemblingTheTextGivesTheCommand : Obligations.AssemblingTheTextGivesTheCommand := by
  intro w pad i h
  cases i with
  | feed cur => exact assembleLine_feed pad (feed_wellFormed_iff.mp h)
  | _ => rfl

/-- Settles O47: the run of VALIDATE responds with STATUS of the padded stream, whose ERR tells well-formedness. -/
theorem validateRunDecidesUtf8 : Obligations.ValidateRunDecidesUtf8 := by
  intro s pad bytes hpad hs
  obtain ⟨t, hrun, hpending, hout, hresults⟩ := run_validate s pad bytes hs
  refine ⟨t, hrun, hpending, by rw [hout]; rfl, hresults, ?_⟩
  rw [hout, response_some_value, verdictOf_status, validated_done, validated_ill, ← validated_err_iff s.width hpad]
  cases (validated s.width pad bytes).err <;> decide

/-- Settles O50: each window is a slice of the padded stream. -/
theorem streamWindowsHoldTheStreamAndPads : Obligations.StreamWindowsHoldTheStreamAndPads := by
  intro w pad bytes
  refine ⟨by simp [streamWindows], fun v hv => ?_, streamWindows_flatten w pad bytes, windowCount_bounds w bytes.length⟩
  obtain ⟨k, -, rfl⟩ := List.mem_map.mp hv
  exact streamWindow_length w pad bytes k

/-- Settles O6: FEED's meaning for a term that is no window. -/
theorem feedWithoutWBytesIsRefused : Obligations.FeedWithoutWBytesIsRefused := fun s cur h => execFeed_refused s cur h

/-- Settles O26: the step's three cases without reset. -/
theorem stepPerformsTheDecodedCommand : Obligations.StepPerformsTheDecodedCommand := fun s =>
  ⟨step_idle s, fun p rest h hr => step_command s p rest h hr,
    fun nbits word => step_command (s.withFetchWord nbits word) _ _ (withFetchWord_pending s nbits word) rfl⟩

/-- Settles O38: the decoder on each opcode; FEED's window by `lanes_getElem`. -/
theorem opcodeMap : Obligations.OpcodeMap := fun w d =>
  ⟨rfl, rfl, ⟨lanes w d, decode_feed d, lanes_getElem w d⟩, rfl, rfl, rfl, rfl, rfl, rfl, rfl, rfl, rfl, rfl, rfl, rfl, rfl⟩

/-- Settles O39: each word evaluated. -/
theorem writtenOutWordsDecode : Obligations.WrittenOutWordsDecode := by
  refine ⟨?_, ?_, rfl, rfl⟩
  · decide
  · decide

end Sys2Proof.Machine

/-! The window primitives (40_window_primitives): bits of a reduction, masks of compares, and the lanes of each primitive. -/

namespace Sys2Proof.Machine

/-! ### Reductions (R82) -/

/-- A bit of an OR over a list is the seed's bit or some element's. -/
theorem getLsbD_foldl_or (l : List Byte) (a : Byte) (j : Nat) :
    (l.foldl (fun x y => x ||| y) a).getLsbD j = true ↔ a.getLsbD j = true ∨ ∃ x ∈ l, x.getLsbD j = true := by
  induction l generalizing a with
  | nil => simp
  | cons x l ih => simp [ih, or_assoc]

/-- R82: `reduce_or` has a bit iff some lane has it. -/
theorem getLsbD_reduceOr {w : Width} (v : Lanes w) (j : Nat) :
    (reduceOr v).getLsbD j = true ↔ ∃ i, ∃ h : i < w.bytes, v[i].getLsbD j = true := by
  rw [reduceOr, getLsbD_foldl_or, List.exists_mem_iff_exists_getElem]
  simp

/-! ### Masks (R89) -/

theorem mask_decide (c : Prop) [Decidable c] : mask (decide c) = if c then 0xFF#8 else 0x00#8 := by
  simp [mask]

theorem mask_gtUnsigned (a b : Byte) : mask (gtUnsigned a b) = if b.toNat < a.toNat then 0xFF#8 else 0x00#8 :=
  mask_decide _

theorem mask_gtSigned (a b : Byte) : mask (gtSigned a b) = if b.toInt < a.toInt then 0xFF#8 else 0x00#8 := by
  rw [gtSigned, s8_eq_toInt, s8_eq_toInt, mask_decide]

/-! ### The obligation -/

/-- Settles O22: the reductions by their bits, then each primitive's lane i by its own lemma. -/
theorem windowPrimitivesPerLane : Obligations.WindowPrimitivesPerLane := by
  intro w u v p x T k
  refine ⟨getLsbD_reduceOr v, anyLane_eq_true v, ascii_eq_true v, fun i h => ?_⟩
  refine ⟨?hi, ?lookup16, shift1_getElem p v h, shift2_getElem p v h, ?subtract, ?add, ?eq, ?gtu, ?gts, ?eqm,
    sentinel_getElem h⟩
  case hi => rw [hiNibbles_getElem, highNibble_toNat]
  case lookup16 => rw [lookup16_getElem, entry]
  case subtract => rw [subSatK_getElem, subSat_toNat]
  case add => rw [addLanes_getElem, addWrap_toNat]
  case eq => rw [eqLanes_getElem, mask_decide]
  case gtu => rw [gtu_getElem, mask_gtUnsigned]
  case gts => rw [gts_getElem, mask_gtSigned]
  case eqm => rw [eqm_getElem, mask_decide]

end Sys2Proof.Machine

/-! The validator datapath (41_validator_datapath): the checks lane by lane, the length compares under both signs, the
sentinel compare of an ASCII window, and the other reading of conflict C3 beside the block's own. -/

namespace Sys2Proof.Machine

/-! ### Lanes of the steps -/

section Lane
variable {w : Width} {i : Nat}

/-- A mask, by what its bit says. -/
theorem mask_eq_ite {c : Bool} {P : Prop} [Decidable P] (h : c = true ↔ P) :
    mask c = if P then 0xFF#8 else 0x00#8 := by
  simp only [mask, h]

/-- R121: the byte one position back, lane 0 reading the previous window's last byte. -/
theorem off1_getElem (prevRaw cur : Lanes w) (h : i < w.bytes) :
    (off1 prevRaw cur)[i] = if i = 0 then prevRaw[w.bytes - 1] else cur[i - 1] :=
  shift1_getElem prevRaw cur h

/-- R116: `r1`. -/
theorem carryOne_getElem (p init : Lanes w) (h : i < w.bytes) :
    (carryOne p init)[i].toNat = (if i = 0 then p[w.bytes - 1] else init[i - 1]).toNat - 1 := by
  rw [carryOne, subSatK_getElem, subSat_toNat, shift1_getElem]
  rfl

/-- R116: `r2`. -/
theorem carryTwo_getElem (p sum : Lanes w) (h : i < w.bytes) :
    (carryTwo p sum)[i].toNat =
      (if i = 0 then p[w.bytes - 2] else if i = 1 then p[w.bytes - 1] else sum[i - 2]).toNat - 2 := by
  rw [carryTwo, subSatK_getElem, subSat_toNat, shift2_getElem]
  rfl

/-- R119: equal conditions are an overlap or an underlap. -/
theorem errLen_getElem (car init : Lanes w) (h : i < w.bytes) :
    (errLen car init)[i] =
      if 0 < init[i].toNat ∧ init[i].toNat < car[i].toNat ∨ init[i].toNat = 0 ∧ car[i].toNat = 0 then 0xFF#8
      else 0x00#8 := by
  simp only [errLen, eqm_getElem, gtu_getElem, broadcast_getElem]
  apply mask_eq_ite
  simp only [decide_eq_true_eq, mask_inj, gtUnsigned, decide_eq_decide, BitVec.toNat_ofNat]
  omega

/-- R122, by byte values. -/
theorem errMax2_getElem (back cur : Lanes w) (h : i < w.bytes) :
    (errMax2 back cur)[i] =
      if back[i].toNat = 0xED ∧ 0x9F < cur[i].toNat ∨ back[i].toNat = 0xF4 ∧ 0x8F < cur[i].toNat then 0xFF#8
      else 0x00#8 := by
  simp only [errMax2, orLanes_getElem, andLanes_getElem, eqLanes_getElem, gtu_getElem, broadcast_getElem, mask_and,
    mask_or]
  apply mask_eq_ite
  simp only [Bool.or_eq_true, Bool.and_eq_true, gtUnsigned, decide_eq_true_eq, byte_eq_iff]
  rfl

/-- R91, by the nibbles that have an entry of their own. -/
theorem entry_iminTable_eq (x : Nibble) :
    entry iminTable x = if x = 0xC#4 then 0xC2#8 else if x = 0xE#4 then 0xE1#8 else if x = 0xF#4 then 0xF1#8
      else 0x80#8 := by
  revert x; decide

/-- R92, by the nibbles that have an entry of their own. -/
theorem entry_sminTable_eq (x : Nibble) :
    entry sminTable x = if x = 0xE#4 then 0xA0#8 else if x = 0xF#4 then 0x90#8 else 0x7F#8 := by
  revert x; decide

theorem gtSigned_iff (a b : Byte) : gtSigned a b = true ↔ b.toInt < a.toInt := by
  rw [gtSigned, decide_eq_true_eq, s8_eq_toInt, s8_eq_toInt]

/-- R124: both signed compares, over the table entries. -/
theorem errOver_getElem (back : Lanes w) (backHi : Nibbles w) (cur : Lanes w) (h : i < w.bytes) :
    (errOver back backHi cur)[i] =
      if back[i].toInt < (entry iminTable backHi[i]).toInt ∧ cur[i].toInt < (entry sminTable backHi[i]).toInt then 0xFF#8
      else 0x00#8 := by
  simp only [errOver, andLanes_getElem, gts_getElem, lookup16_getElem, mask_and]
  apply mask_eq_ite
  rw [Bool.and_eq_true, gtSigned_iff, gtSigned_iff]

end Lane

/-! ### Signed and unsigned compares (R133) -/

/-- Below 128 a byte reads the same as signed and as unsigned. -/
theorem gtSigned_eq_gtUnsigned {a b : Byte} (ha : a.toNat < 128) (hb : b.toNat < 128) :
    gtSigned a b = gtUnsigned a b := by
  simp only [gtSigned, gtUnsigned, s8, ha, hb, if_true, Nat.cast_lt]

theorem gts_eq_gtu {w : Width} {u v : Lanes w} (hu : ∀ i, (h : i < w.bytes) → u[i].toNat < 128)
    (hv : ∀ i, (h : i < w.bytes) → v[i].toNat < 128) : gts u v = gtu u v := by
  ext i hi : 1
  rw [gts_getElem, gtu_getElem, gtSigned_eq_gtUnsigned (hu i hi) (hv i hi)]

theorem initLengths_lt {w : Width} (cur : Lanes w) {i : Nat} (h : i < w.bytes) : (initLengths cur)[i].toNat < 128 := by
  have := lenOf_le cur[i].toNat
  rw [initLengths_toNat cur h]
  omega

theorem sentinel_lt (w : Width) {i : Nat} (h : i < w.bytes) : (sentinel w)[i].toNat < 128 := by
  rw [sentinel_getElem]
  split <;> decide

/-! ### The sentinel compare (R111, R135) -/

/-- Some lane exceeds the sentinel: the last from 2 on, another from 10 on. -/
theorem anyLane_gtu_sentinel {w : Width} (v : Lanes w) :
    anyLane (gtu v (sentinel w)) = true ↔
      ∃ i, ∃ h : i < w.bytes, i = w.bytes - 1 ∧ 2 ≤ v[i].toNat ∨ i ≤ w.bytes - 2 ∧ 10 ≤ v[i].toNat := by
  have hw := w.sixteen_le_bytes
  rw [anyLane_eq_true]
  refine exists_congr fun i => exists_congr fun h => ?_
  rw [gtu_getElem, mask_ne_zero, gtUnsigned, decide_eq_true_eq, sentinel_getElem]
  by_cases hl : i = w.bytes - 1
  · rw [if_pos hl]
    change 1 < v[i].toNat ↔ _
    omega
  · rw [if_neg hl]
    change 9 < v[i].toNat ↔ _
    omega

/-! ### Overwriting `previous` on the fast path (R132, conflict C3) -/

section Overwriting
variable {w : Width} {b b' : Block w} {p : Utf8State}

/-- The other reading writes `previous` as the slow path does, and its accumulator as the block does. -/
theorem windowStepOverwriting_eq (b : Block w) (cur : Lanes w) :
    windowStepOverwriting b cur =
      { slowWindow b cur with hasError := (windowStep b cur).hasError, fast := ascii cur } := by
  cases ha : ascii cur with
  | true => rw [windowStepOverwriting, if_pos ha, windowStep_fast b cur ha]; rfl
  | false => rw [windowStepOverwriting, if_neg (by simp [ha]), windowStep_slow b cur ha]; rfl

theorem windowStepOverwriting_err (b : Block w) (cur : Lanes w) :
    (windowStepOverwriting b cur).err = (windowStep b cur).err := by
  rw [windowStepOverwriting_eq]; rfl

/-- Whatever the window, the overwriting block's `previous` is that of the slow path, which agrees with the decoder. -/
theorem windowStepOverwriting_agrees (hb : BlockAgrees b p) (cur : Lanes w) {q : Utf8State}
    (hq : utf8Run p cur.toList = some q) : BlockAgrees (windowStepOverwriting b cur) q := by
  obtain ⟨leader, last, carries, small, nibbles⟩ := slow_agrees hb cur hq
  rw [windowStepOverwriting_eq]
  exact ⟨leader, last, carries, small, nibbles⟩

theorem windowStep_err_of_err (cur : Lanes w) (h : b.err = true) : (windowStep b cur).err = true :=
  feedAll_err [cur] b h

/-- Two blocks that no later window and no tail check can tell apart by ERR: both in error, or both in agreement with one
state of the decoder. -/
inductive SameVerdict (b b' : Block w) : Prop where
  | failed (h : b.err = true) (h' : b'.err = true)
  | agree (p : Utf8State) (h : BlockAgrees b p) (h' : BlockAgrees b' p) (he : b.err = b'.err)

theorem SameVerdict.err_eq (h : SameVerdict b b') : b.err = b'.err := by
  cases h with
  | failed h h' => rw [h, h']
  | agree p h h' he => exact he

theorem tailCheck_err (b : Block w) : (tailCheck b).err = (b.err || anyLane (gtu b.prevCar (sentinel w))) :=
  anyLane_orLanes b.hasError _

theorem SameVerdict.tailCheck_err_eq (h : SameVerdict b b') : (tailCheck b).err = (tailCheck b').err := by
  rw [tailCheck_err, tailCheck_err]
  cases h with
  | failed h h' => rw [h, h', Bool.true_or, Bool.true_or]
  | agree p h h' he =>
    have hclean : anyLane (gtu b.prevCar (sentinel w)) = anyLane (gtu b'.prevCar (sentinel w)) :=
      Bool.not_inj (Bool.coe_false_iff_false.mp ((agrees_clean_iff h).trans (agrees_clean_iff h').symm))
    rw [he, hclean]

/-- One window, overwritten in the one block and not in the other. -/
theorem SameVerdict.step (h : SameVerdict b b') (cur : Lanes w) :
    SameVerdict (windowStepOverwriting b cur) (windowStep b' cur) := by
  cases h with
  | failed h h' =>
    exact .failed ((windowStepOverwriting_err b cur).trans (windowStep_err_of_err cur h)) (windowStep_err_of_err cur h')
  | agree p h h' he =>
    have hs := (windowStep_simulates h cur).2
    obtain ⟨hn', hs'⟩ := windowStep_simulates h' cur
    have herr : (windowStepOverwriting b cur).err = (windowStep b' cur).err := by
      rw [windowStepOverwriting_err, ← Bool.not_inj_iff, ← Bool.coe_false_iff_false, hs, hs', he]
    cases hrun : utf8Run p cur.toList with
    | some q => exact .agree q (windowStepOverwriting_agrees h cur hrun) (hn' q hrun) herr
    | none =>
      have hbad : (windowStep b' cur).err = true := by
        rw [← Bool.not_eq_false, hs', hrun]
        simp
      exact .failed (herr.trans hbad) hbad

theorem SameVerdict.feeds (windows : List (Lanes w)) (h : SameVerdict b b') :
    SameVerdict (feedAllOverwriting b windows) (feedAll b' windows) := by
  induction windows generalizing b b' with
  | nil => exact h
  | cons v vs ih => exact ih (h.step v)

end Overwriting

/-! ### The obligations -/

/-- Settles O46: the block simulates the decoder of the grammar, and the tail check asks for its start state. -/
theorem acceptedStreamsAreExactlyWellFormedUtf8 : Obligations.AcceptedStreamsAreExactlyWellFormedUtf8 :=
  fun _ windows => tailCheck_feedAll_err_iff windows

/-- Settles O48: fed the same windows, the two readings' blocks stay in `SameVerdict`. -/
theorem overwritingPreviousOnTheFastPathKeepsVerdicts : Obligations.OverwritingPreviousOnTheFastPathKeepsVerdicts := by
  intro w windows
  have hstart : SameVerdict (Block.reset w) (Block.reset w) := .agree .start (reset_agrees w) (reset_agrees w) rfl
  have hfed := hstart.feeds windows
  exact ⟨hfed.err_eq, hfed.tailCheck_err_eq⟩

/-- Settles O18: the stored nibble is that of the byte before, so the check is `overlong_iff` of that byte. -/
theorem overlongCheckByByteValues : Obligations.OverlongCheckByByteValues := by
  rintro w b cur hb i hi back rfl
  rw [ne_eq, errOver_eq_zero _ _ _ hi (off1Hi_agrees hb cur hi), not_not, off1_getElem]

/-- Settles O19: an ASCII window ORs the sentinel compare into an accumulator that was clean. -/
theorem asciiWindowRaisesErrAfterACutSequence : Obligations.AsciiWindowRaisesErrAfterACutSequence := by
  intro s t cur hd he hascii h
  obtain ⟨-, rfl⟩ := exec_next h
  have hblock : blockAfter (.feed cur.toList) s.block = fastWindow s.block := by
    rw [blockAfter_feed hd, windowStep_fast _ _ ((ascii_eq_true cur).mpr hascii)]
  have herr : (fastWindow s.block).err = anyLane (gtu s.block.prevCar (sentinel s.width)) := by
    rw [Block.err, fastWindow_hasError, anyLane_orLanes, show anyLane s.block.hasError = false from he, Bool.false_or,
      errAscii]
  rw [← anyLane_gtu_sentinel, ← herr, ← hblock]
  rfl

/-- Settles O21: every length compared is below 128 under the bounds. -/
theorem lengthComparesHaveOneSignedness : Obligations.LengthComparesHaveOneSignedness := by
  intro w b cur hb
  have hprev : ∀ i, (h : i < w.bytes) → b.prevCar[i].toNat < 128 := fun i h =>
    ((hb i h).trans (carBound_le i)).trans_lt (by decide)
  have hcar : ∀ i, (h : i < w.bytes) → (carried cur b.prevCar)[i].toNat < 128 := fun i h =>
    ((hb.carried_le cur h).trans (carBound_le i)).trans_lt (by decide)
  have hzero : ∀ i, (h : i < w.bytes) → (broadcast w 0x00#8)[i].toNat < 128 := fun i h => by
    rw [broadcast_getElem]; decide
  exact ⟨gts_eq_gtu hprev fun _ => sentinel_lt w, gts_eq_gtu hcar fun _ => initLengths_lt cur,
    gts_eq_gtu (fun _ => initLengths_lt cur) hzero⟩

/-- Settles O12: the table entry is `lenOf`, whose ranges are cut at the same bytes. -/
theorem initialLengthByByteClass : Obligations.InitialLengthByByteClass := by
  intro w cur i hi
  rw [initLengths_toNat cur hi]
  rcases lenOf_cases cur[i].toNat with ⟨hc, hlen⟩ | ⟨hc, hlen⟩ | ⟨hc, hlen⟩ | ⟨hc, hlen⟩ | ⟨hc, hlen⟩ <;>
    rw [hlen] <;> split_ifs <;> omega

/-- Settles O13: each carry is a shift, lane 0 and lane 1 reading the previous lengths, and each add is per lane. -/
theorem continuationDecoderPerLane : Obligations.ContinuationDecoderPerLane := by
  rintro w cur p r1 sum r2 rfl rfl rfl i hi
  refine ⟨?first, fun h => ?inside, ?second, fun h => ?later, ?sum, ?car⟩
  case first =>
    rintro rfl
    exact ⟨carryOne_getElem .., carryTwo_getElem ..⟩
  case inside => rw [carryOne_getElem, if_neg (by omega)]
  case second =>
    rintro rfl
    exact carryTwo_getElem ..
  case later => rw [carryTwo_getElem, if_neg (by omega), if_neg (by omega)]
  case sum => rw [runningSum, addLanes_getElem, addWrap_toNat]
  case car => rw [carried, carriedOf, addLanes_getElem, addWrap_toNat]

/-- Settles O14: two masks are equal exactly when their conditions are. -/
theorem lengthCheckPerLane : Obligations.LengthCheckPerLane := fun _ car init _ hi =>
  errLen_getElem car init hi

/-- Settles O15: the saturating difference, and when it is zero. -/
theorem ceilingCheckPerLane : Obligations.CeilingCheckPerLane := by
  intro w cur i hi
  refine ⟨?_, ?_⟩
  · rw [errCeil, subSatK_getElem, subSat_toNat]
    rfl
  · rw [ne_eq, errCeil_eq_zero cur hi, Nat.not_le]

/-- Settles O16: the byte before is the shifted lane, and the check is by its value. -/
theorem secondByteBoundsPerLane : Obligations.SecondByteBoundsPerLane := by
  rintro w prevRaw cur i hi back rfl
  have hback := off1_getElem prevRaw cur hi
  exact ⟨hback, by rw [errMax2_getElem, hback]⟩

/-- Settles O17: the two tables by their entries, whatever bytes and nibbles stand in the lanes. -/
theorem overlongCheckPerLane : Obligations.OverlongCheckPerLane := by
  rintro w back cur backHi i hi imin smin rfl rfl
  rw [errOver_getElem, entry_iminTable_eq, entry_sminTable_eq]

end Sys2Proof.Machine

/-! The commands (42_commands): each one's next state in full, what only INIT clears, and what a finished run keeps. -/

namespace Sys2Proof.Machine

/-! ### The commands' answers (R153, R159, R165) -/

/-- R153: FEED completes on every window. -/
theorem exec_feed (s : State) (cur : Lanes s.width) :
    exec (.feed cur.toList) s = .next (s.complete (feedWindow s.block cur) Response.none) :=
  execFeed_window s cur

theorem exec_finish (s : State) : exec .finish s = .next (s.complete (finishRun s.block) Response.none) := rfl

theorem exec_reserved {i : Instr} (h : i ∈ reservedOpcodes) (s : State) : exec i s = .next s.reservedOpcode := by
  cases i with
  | feed cur => exact absurd rfl ((reserved_ne h).2.2 cur)
  | nop | init | finish | query => exact absurd h (by decide)
  | _ => rfl

/-! ### Lanes of the accumulator and of `previous` -/

section Lane
variable {w : Width} {i : Nat}

/-- R93, R111, R128: the sentinel compare, by the bound of each lane. -/
theorem gtu_sentinel_getElem (v : Lanes w) (h : i < w.bytes) :
    (gtu v (sentinel w))[i] = if (if i = w.bytes - 1 then 1 else 9) < v[i].toNat then 0xFF#8 else 0x00#8 := by
  rw [gtu_getElem, mask_gtUnsigned, sentinel_getElem, apply_ite BitVec.toNat]
  rfl

/-- R126: the four checks, ORed per lane. -/
theorem slowError_getElem (b : Block w) (cur : Lanes w) (h : i < w.bytes) :
    (slowError b cur)[i] =
      (errLen (carried cur b.prevCar) (initLengths cur))[i] ||| (errCeil cur)[i] |||
        (errMax2 (off1 b.prevRaw cur) cur)[i] |||
        (errOver (off1 b.prevRaw cur) (off1Hi b.prevHi (hiNibbles cur)) cur)[i] := by
  simp only [slowError, orLanes_getElem]

theorem hiNibbles_toNat (v : Lanes w) (h : i < w.bytes) : (hiNibbles v)[i].toNat = v[i].toNat / 16 := by
  rw [hiNibbles_getElem, highNibble_toNat]

/-- R33: the reset block's vectors are zero in every lane. -/
theorem block_reset_getElem (w : Width) (h : i < w.bytes) :
    (Block.reset w).prevRaw[i] = 0x00#8 ∧ (Block.reset w).prevHi[i] = 0x0#4 ∧ (Block.reset w).prevCar[i] = 0x00#8 ∧
      (Block.reset w).hasError[i] = 0x00#8 := by
  simp [Block.reset]

theorem ascii_eq_false {v : Lanes w} (h : ∃ i, ∃ hi : i < w.bytes, 0x80 ≤ v[i].toNat) : ascii v = false := by
  obtain ⟨i, hi, hbyte⟩ := h
  exact (ascii_eq_false_iff v).mpr ⟨v[i], by simp, hbyte⟩

end Lane

/-! ### What only INIT and reset clear (R26, R31, R32, R151) -/

section Kept
variable {w : Width} {b b' : Block w} {p : Option Instr}

theorem BlockStep.hasError_keeps_bit (h : BlockStep b p b') (hr : p ≠ none) (hi : p ≠ some .init) {k : Nat}
    (hk : k < w.bytes) {j : Nat} (hbit : b.hasError[k].getLsbD j = true) : b'.hasError[k].getLsbD j = true := by
  obtain heq | ⟨e, heq⟩ := h.hasError_eq_or hr hi
  · rwa [heq]
  · rw [heq, orLanes_getElem, BitVec.getLsbD_or, hbit, Bool.true_or]

/-- R32: ILL, once set, is left set by everything but INIT and reset. -/
theorem BlockStep.ill_kept (h : BlockStep b p b') (hr : p ≠ none) (hi : p ≠ some .init) (hill : b.ill = true) :
    b'.ill = true := by
  cases h with
  | clear hc => exact absurd hc (by simp [hr, hi])
  | reserved | late => rfl
  | keep | fast | slow | tail => exact hill

/-- R150, R157, R160, R162, R165: everything but INIT and reset leaves a finished run's block as it is, but for ILL. -/
theorem BlockStep.kept_or_violate (h : BlockStep b p b') (hd : b.done = true) (hr : p ≠ none) (hi : p ≠ some .init) :
    b' = b ∨ b' = b.violate := by
  cases h with
  | clear hc => exact absurd hc (by simp [hr, hi])
  | keep => exact .inl rfl
  | reserved | late => exact .inr rfl
  | fast _ ho | slow _ ho | tail ho => rw [hd] at ho; cases ho

end Kept

/-- The inversion of `exec` on the block: what replaces it is a case of `BlockStep`. -/
theorem blockStep_of_exec {i : Instr} {s : State} {b : Block s.width} {r : Response}
    (h : exec i s = .next { s with block := b, out := r }) : BlockStep s.block (some i) b := by
  obtain ⟨hw, heq⟩ := exec_next h
  obtain rfl : b = blockAfter i s.block := eq_of_heq (State.mk.inj heq).2.1
  exact blockStep_blockAfter s.block hw

/-- R28, R162: STATUS is a nibble, its upper bits are 0. -/
theorem status_upper_bits {w : Width} (b : Block w) {j : Nat} (hj : 4 ≤ j) : b.status.getLsbD j = false := by
  obtain ⟨k, rfl⟩ := Nat.exists_eq_add_of_le' hj
  simp only [Block.status, BitVec.getLsbD_setWidth, BitVec.getLsbD_append]
  simp

/-! ### The obligations -/

/-- Settles O2: INIT's block is that of R33; every other command's effect is a case of `BlockStep` that clears nothing. -/
theorem initGivesTheZeroStateAndAloneClears : Obligations.InitGivesTheZeroStateAndAloneClears := by
  constructor
  · intro s
    exact ⟨Block.reset s.width, rfl, fun _ hi => block_reset_getElem s.width hi, rfl, rfl, rfl⟩
  · intro i s b r hi h
    have hb := blockStep_of_exec h
    have hne : some i ≠ some .init := fun he => hi (Option.some.inj he)
    exact ⟨fun k hk j => hb.hasError_keeps_bit (by simp) hne hk, fun hd => hb.done_iff.mpr ⟨i, rfl, hi, .inl hd⟩,
      hb.ill_kept (by simp) hne⟩

/-- Settles O3: the accepted FEED is the fast path, which ORs in the sentinel compare. -/
theorem feedOfAnAsciiWindowComparesTheSentinel : Obligations.FeedOfAnAsciiWindowComparesTheSentinel := by
  intro s cur hd hascii
  refine ⟨fastWindow s.block, ?_, fun i hi => ?_, rfl, rfl, rfl, rfl, rfl, rfl⟩
  · rw [exec_feed, feedWindow_open _ _ hd, windowStep_fast _ _ ((ascii_eq_true cur).mpr hascii)]
    rfl
  · rw [fastWindow_hasError, orLanes_getElem, errAscii, gtu_sentinel_getElem]

/-- Settles O4: the accepted FEED is the slow path, which ORs in the four checks and replaces `previous`. -/
theorem feedOfAnotherWindowRunsTheChecks : Obligations.FeedOfAnotherWindowRunsTheChecks := by
  intro s cur hd hbyte
  refine ⟨slowWindow s.block cur, ?_, fun i hi => ?_, rfl, fun i hi => hiNibbles_toNat cur hi, rfl, rfl, rfl, rfl⟩
  · rw [exec_feed, feedWindow_open _ _ hd, windowStep_slow _ _ (ascii_eq_false hbyte)]
    rfl
  · rw [slowWindow_hasError, orLanes_getElem, slowError_getElem]

/-- Settles O34: a finished run's block is left as it is or has ILL set, and neither writes anything else. -/
theorem aFinishedRunKeepsItsVerdict : Obligations.AFinishedRunKeepsItsVerdict := by
  intro s t h hd hr hi
  obtain ⟨b, hb, rfl⟩ := step_next h
  obtain rfl | rfl := hb.kept_or_violate hd hr hi
  · exact ⟨hd, rfl, rfl, rfl, rfl, rfl, rfl⟩
  · exact ⟨hd, rfl, rfl, rfl, rfl, rfl, rfl⟩

/-- Settles O1: NOP's arm. -/
theorem nopOnlyDropsTheResponse : Obligations.NopOnlyDropsTheResponse := fun _ => rfl

/-- Settles O5: FEED's meaning with `done` set. -/
theorem feedAfterFinishSetsOnlyIll : Obligations.FeedAfterFinishSetsOnlyIll := by
  intro s cur hd
  rw [exec_feed, feedWindow_done _ _ hd]
  rfl

/-- Settles O7: the accepted FINISH ORs in the sentinel compare and sets DONE. -/
theorem finishRunsTheTailCheck : Obligations.FinishRunsTheTailCheck := by
  intro s hd
  refine ⟨tailCheck s.block, ?_, fun i hi => ?_, rfl, rfl, rfl, rfl, rfl, rfl⟩
  · rw [exec_finish, finishRun_open _ hd]
    rfl
  · rw [tailCheck_hasError, orLanes_getElem, errTail, gtu_sentinel_getElem]

/-- Settles O8: FINISH's meaning with `done` set. -/
theorem finishAfterFinishSetsOnlyIll : Obligations.FinishAfterFinishSetsOnlyIll := by
  intro s hd
  rw [exec_finish, finishRun_done _ hd]
  rfl

/-- Settles O9: the response is STATUS, bit by bit. -/
theorem queryRespondsWithTheStatusBits : Obligations.QueryRespondsWithTheStatusBits := by
  intro s
  obtain ⟨herr, hfast, hdone, hill⟩ := status_bits s.block
  refine ⟨s.block.status, rfl, ?_, hfast, hdone, hill, fun _ hj => status_upper_bits s.block hj⟩
  rw [herr]
  exact anyLane_eq_true s.block.hasError

/-- Settles O10: the eleven opcodes have one meaning. -/
theorem reservedOpcodesSetOnlyIll : Obligations.ReservedOpcodesSetOnlyIll := fun s _ hi => exec_reserved hi s

end Sys2Proof.Machine

/-! The companion functions (48_companion_bitops): first and last set bits, the borrow of `x − 1`, and the bits of a
packed mask. -/

namespace Sys2Proof.Machine

/-! ### Searches for a set bit (R181, R182) -/

theorem exists_bit_of_ne_zero {x : BitVec 64} (hx : x ≠ 0#64) : ∃ i < 64, x.getLsbD i = true := by
  by_contra h
  push Not at h
  exact hx (BitVec.eq_of_getLsbD_eq fun i hi => by simpa using h i hi)

/-- A search that some index meets ends at the first such index. -/
theorem find?_range_first {n : Nat} {p : Nat → Bool} (h : ∃ i < n, p i = true) :
    ∃ i < n, (List.range n).find? p = some i ∧ p i = true ∧ ∀ j < i, p j = false := by
  obtain ⟨k, hk, hp⟩ := h
  obtain ⟨i, hi⟩ := Option.isSome_iff_exists.mp (List.find?_isSome.mpr ⟨k, List.mem_range.mpr hk, hp⟩)
  obtain ⟨hpi, hin, hlow⟩ := List.find?_range_eq_some.mp hi
  exact ⟨i, List.mem_range.mp hin, hi, hpi, fun j hj => by simpa using hlow j hj⟩

/-- R181: the search meets no bit of 0, so the draw answers. -/
theorem trailingZeroCount_zero (draw : Nat) : trailingZeroCount draw 0#64 = Config.freeTrailingZeroCount draw := rfl

/-- R181: the search upwards from bit 0 ends at the lowest set bit. -/
theorem trailingZeroCount_lowest (draw : Nat) {x : BitVec 64} (hx : x ≠ 0#64) :
    ∃ i, i < 64 ∧ trailingZeroCount draw x = BitVec.ofNat 64 i ∧ x.getLsbD i = true ∧
      ∀ j, j < i → x.getLsbD j = false := by
  obtain ⟨i, hi, hfind, hset, hlow⟩ := find?_range_first (exists_bit_of_ne_zero hx)
  exact ⟨i, hi, by rw [trailingZeroCount, hfind], hset, hlow⟩

/-- R182: the search downwards from bit 63 ends at the highest set bit. -/
theorem leadingZeroCount_highest {x : BitVec 64} (hx : x ≠ 0#64) :
    ∃ j, j < 64 ∧ leadingZeroCount x = BitVec.ofNat 64 (63 - j) ∧ x.getLsbD j = true ∧
      ∀ k, j < k → x.getLsbD k = false := by
  have hsome : ∃ i < 64, x.getLsbD (63 - i) = true := by
    obtain ⟨j, hj, hset⟩ := exists_bit_of_ne_zero hx
    exact ⟨63 - j, by omega, by rwa [show 63 - (63 - j) = j by omega]⟩
  obtain ⟨i, hi, hfind, hset, habove⟩ := find?_range_first hsome
  have hi63 : 63 - (63 - i) = i := by omega
  refine ⟨63 - i, by omega, by rw [leadingZeroCount, hfind, hi63], hset, fun k hk => ?_⟩
  obtain hk64 | hk64 := Nat.lt_or_ge k 64
  · have hclear := habove (63 - k) (by omega)
    rwa [show 63 - (63 - k) = k by omega] at hclear
  · exact BitVec.getLsbD_of_ge x k hk64

/-! ### Subtracting 1 (R183) -/

/-- Adding all ones, which is −1, carries into bit i iff some bit below i is set. -/
theorem carry_allOnes {w i : Nat} (x : BitVec w) (hi : i ≤ w) :
    BitVec.carry i x (BitVec.allOnes w) false = true ↔ ∃ j, j < i ∧ x.getLsbD j = true := by
  induction i with
  | zero => simp [BitVec.carry_zero]
  | succ i ih =>
    rw [BitVec.carry_succ, BitVec.getLsbD_allOnes, decide_eq_true (Nat.lt_of_succ_le hi),
      Nat.exists_lt_succ_right, ← ih (by omega)]
    cases x.getLsbD i <;> simp [Bool.atLeastTwo]

/-- R183: `x − 1` keeps bit i of x if some bit below i is set; else the borrow reaches it and flips it. -/
theorem getLsbD_sub_one {w i : Nat} (x : BitVec w) (hi : i < w) :
    (x - 1#w).getLsbD i = (x.getLsbD i ^^ !BitVec.carry i x (BitVec.allOnes w) false) := by
  rw [BitVec.sub_eq_add_neg, BitVec.neg_one_eq_allOnes, BitVec.getLsbD_add hi, BitVec.getLsbD_allOnes,
    decide_eq_true hi, Bool.true_xor]

/-- R183: a set bit stays unless it is the lowest, and no clear bit becomes set. -/
theorem clearLowestSetBit_getLsbD (x : BitVec 64) (i : Nat) :
    (clearLowestSetBit x).getLsbD i = true ↔ x.getLsbD i = true ∧ ∃ j, j < i ∧ x.getLsbD j = true := by
  rw [clearLowestSetBit, BitVec.getLsbD_and, Bool.and_eq_true]
  refine and_congr_right fun hset => ?_
  have hi : i < 64 := BitVec.lt_of_getLsbD hset
  rw [getLsbD_sub_one x hi, hset, Bool.true_xor, Bool.not_not, carry_allOnes x hi.le]

/-! ### Counts and checked arithmetic (R184 to R186) -/

/-- R184: the count is at most 64, so a word holds it. -/
theorem populationCount_toNat (x : BitVec 64) :
    (populationCount x).toNat = ((List.range 64).filter fun i => x.getLsbD i).length := by
  have hle : (List.range 64).countP (fun i => x.getLsbD i) ≤ 64 := List.countP_le_length.trans_eq List.length_range
  rw [populationCount, BitVec.toNat_ofNat, Nat.mod_eq_of_lt (by omega), List.countP_eq_length_filter]

theorem checkedAdd_eq (a b : BitVec 64) : checkedAdd a b = (a + b, decide (2 ^ 64 ≤ a.toNat + b.toNat)) := by
  rw [checkedAdd, BitVec.ofNat_add, BitVec.ofNat_toNat, BitVec.ofNat_toNat, BitVec.setWidth_eq, BitVec.setWidth_eq]

theorem checkedMul_eq (a b : BitVec 64) : checkedMul a b = (a * b, decide (2 ^ 64 ≤ a.toNat * b.toNat)) := by
  rw [checkedMul, BitVec.ofNat_mul, BitVec.ofNat_toNat, BitVec.ofNat_toNat, BitVec.setWidth_eq, BitVec.setWidth_eq]

/-! ### Lanes of the window helpers (R187 to R191) -/

section Helper
variable {w : Width}

theorem windowOfLanes_toList (v : Lanes w) : windowOfLanes w v.toList = some v := by
  rw [windowOfLanes, dif_pos v.length_toList]
  rfl

@[simp] theorem bitmaskBy_getLsbD (f : Byte → Bool) (v : Lanes w) {i : Nat} (h : i < w.bytes) :
    (bitmaskBy f v).getLsbD i = f v[i] := by
  rw [bitmaskBy, BitVec.getLsbD_ofFnLE, dif_pos h]

theorem toBitmask_getLsbD (v : Lanes w) {i : Nat} (h : i < w.bytes) : (toBitmask v).getLsbD i = v[i].getLsbD 7 :=
  bitmaskBy_getLsbD _ v h

theorem equalsByte_getLsbD (v : Lanes w) (m : Byte) {i : Nat} (h : i < w.bytes) :
    (equalsByte v m).getLsbD i = true ↔ v[i] = m := by
  rw [equalsByte, bitmaskBy_getLsbD _ v h, decide_eq_true_iff]

theorem lessOrEqualByte_getLsbD (v : Lanes w) (m : Byte) {i : Nat} (h : i < w.bytes) :
    (lessOrEqualByte v m).getLsbD i = true ↔ v[i].toNat ≤ m.toNat := by
  rw [lessOrEqualByte, bitmaskBy_getLsbD _ v h, decide_eq_true_iff]

theorem bitwiseOrByte_getElem (v : Lanes w) (m : Byte) {i : Nat} (h : i < w.bytes) :
    (bitwiseOrByte v m)[i] = v[i] ||| m :=
  laneMap_getElem _ v h

end Helper

/-! ### The obligations of 48_companion_bitops -/

/-- Settles O53: the two searches end at the lowest and the highest set bit, and `x − 1` borrows up to the lowest. -/
theorem bitOpsCountAndCheck : Obligations.BitOpsCountAndCheck :=
  ⟨trailingZeroCount_zero, fun draw _ hx => trailingZeroCount_lowest draw hx, fun _ hx => leadingZeroCount_highest hx,
    rfl, clearLowestSetBit_getLsbD, populationCount_toNat, checkedAdd_eq, checkedMul_eq⟩

/-- Settles O54: each helper's lane i. -/
theorem windowHelpersPerLane : Obligations.WindowHelpersPerLane := fun _ v m _ h =>
  ⟨windowOfLanes_toList v, toBitmask_getLsbD v h, equalsByte_getLsbD v m h, lessOrEqualByte_getLsbD v m h,
    bitwiseOrByte_getElem v m h⟩

end Sys2Proof.Machine

/-! The exceptions (60_exceptions): completion of every command and step, the causes of ILL, and what clears ERR. -/

namespace Sys2Proof.Machine

section Causes
variable {w : Width} {b b' : Block w} {p : Option Instr} {i : Instr}

/-- R203: a command that sets ILL: a reserved opcode, or FEED or FINISH of a finished run. -/
def Violates (b : Block w) (i : Instr) : Prop :=
  i ∈ reservedOpcodes ∨ b.done = true ∧ (i = .finish ∨ ∃ cur, i = .feed cur)

/-- R157, R160, R165: a cause of ILL does nothing to the block but set it. -/
theorem Violates.eq_violate (hv : Violates b i) (h : BlockStep b (some i) b') : b' = b.violate := by
  obtain hres | ⟨hd, hi⟩ := hv
  · obtain ⟨hinit, hfinish, hfeed⟩ := reserved_ne hres
    cases h with
    | clear hc => simp [hinit] at hc
    | keep hi => rcases hi with rfl | rfl <;> exact absurd hres (by decide)
    | fast cur | slow cur => exact absurd rfl (hfeed _)
    | tail => exact absurd rfl hfinish
    | reserved | late => rfl
  · exact h.eq_violate hd (by simpa only [Option.some.injEq] using hi)

theorem not_violates_of_nop_or_query (hi : i = .nop ∨ i = .query) : ¬ Violates b i := by
  rcases hi with rfl | rfl <;> simp [Violates, reservedOpcodes]

/-- R153, R159: FEED and FINISH of an unfinished run are no cause of ILL, whatever the data. -/
theorem not_violates_of_open (hd : b.done = false) (hi : i = .finish ∨ ∃ cur, i = .feed cur) : ¬ Violates b i := by
  rcases hi with rfl | ⟨cur, rfl⟩ <;> simp [Violates, reservedOpcodes, hd]

/-- R32, R203: ILL after a step. -/
theorem BlockStep.ill_iff (h : BlockStep b p b') :
    b'.ill = true ↔ ∃ i, p = some i ∧ i ≠ .init ∧ (b.ill = true ∨ Violates b i) := by
  cases h with
  | clear hc => rcases hc with rfl | rfl <;> simp
  | keep hi =>
    have hv : ¬ Violates b _ := not_violates_of_nop_or_query hi
    rcases hi with rfl | rfl <;> simp [hv]
  | fast cur hd | slow cur hd => simp [not_violates_of_open hd (.inr ⟨cur.toList, rfl⟩)]
  | tail hd => simp [not_violates_of_open hd (.inl rfl)]
  | reserved hi => simpa using ⟨(reserved_ne hi).1, .inr (.inl hi)⟩
  | late hd hi => rcases hi with rfl | ⟨cur, rfl⟩ <;> simp [Violates, hd]

/-- R26, R205: a set ERR stays set over everything but INIT and reset. -/
theorem BlockStep.err_kept (h : BlockStep b p b') (hr : p ≠ none) (hi : p ≠ some .init) (herr : b.err = true) :
    b'.err = true := by
  rw [Block.err] at herr ⊢
  obtain heq | ⟨e, heq⟩ := h.hasError_eq_or hr hi
  · rwa [heq]
  · rw [heq, anyLane_orLanes, herr, Bool.true_or]

end Causes

/-! ### The obligations of 60_exceptions -/

/-- Settles O11: a command at the machine's width has a meaning, and so has every step; neither writes the width. -/
theorem everyCommandAndStepCompletes : Obligations.EveryCommandAndStepCompletes :=
  ⟨fun i s hi => ⟨_, exec_wellFormed i s hi, rfl⟩, fun s => ⟨_, step_eq s, rfl⟩⟩

/-- Settles O32: ILL by what the step performs; a cause of it sets ILL and leaves the accumulator, so ERR, as it is. -/
theorem illHasThreeCauses : Obligations.IllHasThreeCauses := by
  intro s t h
  obtain ⟨b, hb, rfl⟩ := step_next h
  refine ⟨hb.ill_iff, fun ⟨i, hp, hv⟩ => ?_⟩
  rw [hp] at hb
  obtain rfl := Violates.eq_violate hv hb
  exact ⟨rfl, rfl⟩

/-- Settles O33: what is neither INIT nor reset keeps a set ERR. -/
theorem onlyInitAndResetClearErr : Obligations.OnlyInitAndResetClearErr := by
  intro s t h herr hclear
  obtain ⟨b, hb, rfl⟩ := step_next h
  by_contra hc
  obtain ⟨hr, hi⟩ := not_or.mp hc
  have hkept : b.err = true := hb.err_kept hr hi herr
  exact Bool.false_ne_true (hclear.symm.trans hkept)

end Sys2Proof.Machine

/-! The reset and hazard rules (70_reset_and_hazards): the reset state and reset step, the verdict of a response, and where
a run has its result. -/

namespace Sys2Proof.Machine

/-! ### Runs and their results (R233, R240) -/

section Results
variable {w : Width}

/-- The results of a program issued to a machine with nothing pending follow from the block alone. -/
theorem results_issue {s : State} {prog : List Instr} (hs : s.pending = []) (hprog : ∀ i ∈ prog, i.WellFormed s.width) :
    (s.issue prog).results = programResults false s.block prog := by
  obtain ⟨w, b, o, pending⟩ := s
  obtain rfl : pending = [] := hs
  calc (State.issue ⟨w, b, o, []⟩ prog).results
    _ = resultsOf prog.length false ⟨w, b, o, prog.map (portOf w)⟩ := by simp [State.results, State.issue]
    _ = programResults false b prog := resultsOf_issued w prog (fun i hi => decode_encode (hprog i hi)) false b o

/-- R60: the state a program leaves on a machine with nothing pending: its block has been through each command in turn. -/
theorem run_issue_eq {s t : State} {prog : List Instr} (hs : s.pending = []) (hprog : ∀ i ∈ prog, i.WellFormed s.width)
    (hrun : Host.Core.run Sys2Proof.core prog.length (s.issue prog) = .next t) :
    ∃ o, t = ⟨s.width, prog.foldl (fun b i => blockAfter i b) s.block, o, []⟩ := by
  obtain ⟨w, b, o, pending⟩ := s
  obtain rfl : pending = [] := hs
  obtain ⟨o', hprogram⟩ := run_program w prog (fun i hi => decode_encode (hprog i hi)) b o []
  have hissue : State.issue ⟨w, b, o, []⟩ prog = ⟨w, b, o, prog.map (portOf w) ++ []⟩ := by simp [State.issue]
  rw [hissue] at hrun
  exact ⟨o', Host.Outcome.next.inj (hrun.symm.trans hprogram)⟩

theorem forall_wellFormed_insert {p q : List Instr} {i : Instr} (hpq : ∀ j ∈ p ++ q, j.WellFormed w)
    (hi : i.WellFormed w) : ∀ j ∈ p ++ i :: q, j.WellFormed w := by
  obtain ⟨hp, hq⟩ := List.forall_mem_append.mp hpq
  exact List.forall_mem_append.mpr ⟨hp, List.forall_mem_cons.mpr ⟨hi, hq⟩⟩

/-- R233: INIT starts a run of its own from the reset block, whatever the run before it came to. -/
theorem programResults_init (ended : Bool) (b : Block w) (q : List Instr) :
    programResults ended b (.init :: q) = programResults false (Block.reset w) q := by
  simp [programResults, blockAfter]

/-- R240: a program without a result leaves the run going on without one, for what stands behind it. -/
theorem programResults_append_of_nil {b : Block w} {p : List Instr} (hp : programResults false b p = []) (q : List Instr) :
    programResults false b (p ++ q) = programResults false (p.foldl (fun b i => blockAfter i b) b) q := by
  obtain ⟨e, happend, hfalse⟩ := programResults_append false b p
  obtain rfl := hfalse hp rfl
  rw [happend, hp, List.nil_append]

/-- R240: the first QUERY with DONE = 1 gives STATUS, and nothing behind it gives another result before an INIT. -/
theorem programResults_query_done {b : Block w} (hd : b.done = true) {q : List Instr} (hq : ∀ i ∈ q, i ≠ .init) :
    programResults false b (.query :: q) = [b.status] := by
  simp [programResults, hd, programResults_ended b q hq]

/-- R240, R241: a QUERY with DONE = 0 is no result. -/
theorem programResults_query_open {b : Block w} (hd : b.done = false) : programResults false b [.query] = [] := by
  simp [programResults, hd]

end Results

/-! ### The obligations of 70_reset_and_hazards -/

/-- Settles O36: a program's results split at any place, and INIT makes what stands behind it start from the reset block. -/
theorem everyInitStartsARunWithItsOwnResult : Obligations.EveryInitStartsARunWithItsOwnResult := by
  intro s before later hs hwf
  obtain ⟨hbefore, hlater⟩ := List.forall_mem_append.mp hwf
  obtain ⟨e, happend, -⟩ := programResults_append false s.block before
  calc (s.issue (before ++ .init :: later)).results
    _ = programResults false s.block (before ++ .init :: later) :=
      results_issue hs (forall_wellFormed_insert hwf rfl)
    _ = programResults false s.block before ++ programResults false (Block.reset s.width) later := by
      rw [happend, programResults_init]
    _ = (s.issue before).results ++ ((State.resetAt s.width).issue later).results := by
      rw [results_issue hs hbefore, results_issue (s := State.resetAt s.width) rfl hlater]
      rfl

/-- Settles O37: `before` leaves the run without a result, so the QUERY behind it decides by DONE of the block it finds. -/
theorem aRunEndsAtItsFirstQueryWithDone : Obligations.ARunEndsAtItsFirstQueryWithDone := by
  intro s t before later hs hwf hinit hnone hrun
  obtain ⟨hbefore, -⟩ := List.forall_mem_append.mp hwf
  obtain ⟨o, rfl⟩ := run_issue_eq hs hbefore hrun
  rw [results_issue hs hbefore] at hnone
  constructor <;> intro hd
  · rw [results_issue hs (forall_wellFormed_insert hwf rfl), programResults_append_of_nil hnone,
      programResults_query_done hd hinit]
  · have hquery : ∀ i ∈ before ++ [Instr.query], i.WellFormed s.width :=
      forall_wellFormed_insert (by rwa [List.append_nil]) rfl
    rw [results_issue hs hquery, programResults_append_of_nil hnone, programResults_query_open hd]

/-- Settles O23: the reset block is zero in every lane and flag, so ERR is 0 too. -/
theorem powerOnStateIsTheZeroState : Obligations.PowerOnStateIsTheZeroState := by
  refine ⟨rfl, fun w => ⟨?_, Block.reset w, rfl, fun _ hi => block_reset_getElem w hi, rfl, rfl, rfl⟩⟩
  have herr : (State.resetAt w).block.err = false := block_reset_err w
  rw [State.ports, herr]
  rfl

/-- Settles O27: the step's reset case enters the reset block, which is zero in every lane and flag. -/
theorem resetStepOverridesTheCommand : Obligations.ResetStepOverridesTheCommand := fun s p rest hp hr =>
  ⟨Block.reset s.width, step_reset s p rest hp hr, fun _ hi => block_reset_getElem s.width hi, rfl, rfl, rfl⟩

/-- Settles O35: the response is STATUS, whose verdict is decided by DONE, then ILL, then ERR. -/
theorem queryResponseIsTheVerdict : Obligations.QueryResponseIsTheVerdict := by
  intro s t h
  obtain ⟨-, rfl⟩ := exec_next h
  simp only [State.ports, responseOf, response_some_value, verdictOf_status]
  split_ifs with hd hi he
  · simp [hd]
  · simp [hd, hi]
  · simp [hd, hi, he]
  · simp [hd, hi, he]

end Sys2Proof.Machine
